-- ==== Sys2Proof/Word.lean ====
section
/-! DEFINITION. The word types of the block: a byte of a buffer, a 32-bit register or command word, a 64-bit wire word. -/

namespace Sys2Proof

/-- One byte of a buffer (00_scope.md R13). -/
abbrev Byte := BitVec 8

/-- A command word, an operand word or a register (10_state.md R23, 30_encoding.md R70). -/
abbrev Word := BitVec 32

/-- A word of the wire formats (20_memory.md R53). -/
abbrev DWord := BitVec 64

end Sys2Proof
end

