-- ==== Sys2Proof/Config.lean ====
section
/-! DEFINITION. What is fixed for one machine: the types of its parameters (00_scope.md R8), the constants the model fixes,
and the free values the spec leaves open. The values of the parameters stand in Machine/Layout.lean. -/

namespace Sys2Proof

/-- One bit field of a wire word: bits `lo + width - 1` down to `lo` (00_scope.md R12, 30_encoding.md R85). -/
structure Field where
  lo : Nat
  width : Nat
  deriving DecidableEq, Repr, Inhabited

/-- `P_LAYOUT` (00_scope.md R8): the place of every field of the trailer word (30_encoding.md R80), of a packet descriptor
(R81) and of the TX header (R82), and the two L4 type codes (R83). -/
structure Layout where
  rxtCnt : Field
  rxtOff : Field
  rxdL4err : Field
  rxdL3err : Field
  rxdL4t : Field
  rxdVlan : Field
  rxdRxok : Field
  rxdLen : Field
  rxdDrop : Field
  rxdVid : Field
  txhLen : Field
  txhDroppad : Field
  txhVlan : Field
  txhMss : Field
  txhTci : Field
  l4Udp : Nat
  l4Tcp : Nat
  deriving DecidableEq, Repr, Inhabited

/-- The parameters a model takes as arguments (00_scope.md R8). No step changes them. -/
structure Params where
  /-- `P_RX_HW_PAD` -/
  rxHwPad : Nat
  /-- `P_SKIP_CSUM_ERR` -/
  skipCsumErr : Bool
  /-- `P_LAYOUT` -/
  layout : Layout
  deriving DecidableEq, Repr, Inhabited

/-- The two questions a `TXE` may ask the host (60_exceptions.md R252). -/
inductive Draw where
  | lin
  | alloc
  deriving DecidableEq, Repr, Inhabited

/-- The host's answer to a draw (60_exceptions.md R252). -/
inductive Answer where
  | ok
  | fail
  deriving DecidableEq, Repr, Inhabited

namespace Config

/-- `P_XFER_MAX` (00_scope.md R8): the exclusive upper bound on an RX transfer length and on the TX margins. Fixed at the
spec's value (log 18). -/
def xferMax : Nat := 2 ^ 32

/-- FREE VALUE: the host's answer to draw number `n` where State holds no answer for it (60_exceptions.md R252, log 5). -/
opaque hostAnswer : Draw → Nat → Answer

/-- FREE VALUE: byte `j` of input segment `i` after the `TXE` numbered `n` (20_memory.md R69, log 6). -/
opaque segmentByte : Nat → Nat → Nat → Byte

end Config

end Sys2Proof
end

