-- ==== Sys2Proof/Syntax.lean ====
section
/-! DEFINITION. The commands of the block as terms, and a command as the host presents it to the port. -/

namespace Sys2Proof

/-- One constructor per row of spec/opcode_table.json, each with the operands its opcode names (30_encoding.md R74). -/
inductive Instr where
  /-- `CFGW`: write `data` to register `csr` (42_control.md R200). -/
  | cfgw (csr : BitVec 8) (data : Word)
  /-- `CFGR`: read register `csr` (42_control.md R204). -/
  | cfgr (csr : BitVec 8)
  /-- `RXD`: decode the inbound transfer `b` (40_rx_reassembly.md R110). -/
  | rxd (b : List Byte)
  /-- `TXE`: encode the frame of the segments `segs` (41_tx_framing.md R160). `v` is the command word's VLAN-present bit,
  `mss` and `tci` the fields of `OP0` (30_encoding.md R75), `hr` and `tr` the leading and trailing space. -/
  | txe (v : Bool) (mss tci : BitVec 16) (segs : List (List Byte)) (hr tr : Nat)
  deriving DecidableEq, Repr

/-- The operands that stand beside a command word (30_encoding.md R74). A command takes those its opcode names. -/
structure Operands where
  /-- the 32-bit `DATA` of `CFGW` -/
  data : Word := 0
  /-- the transfer buffer `B` of `RXD` -/
  buf : List Byte := []
  /-- the operand word `OP0` of `TXE` -/
  op0 : Word := 0
  /-- the segments `SEGS` of `TXE` -/
  segs : List (List Byte) := []
  /-- the leading space `HR` of `TXE` -/
  hr : Nat := 0
  /-- the trailing space `TR` of `TXE` -/
  tr : Nat := 0
  deriving DecidableEq, Repr

/-- A command as it is presented: the command word and all of its operands together (30_encoding.md R70, R74). -/
structure Presented where
  cw : Word
  ops : Operands := {}
  deriving DecidableEq, Repr

end Sys2Proof
end

