-- ==== Sys2Proof/WellFormed.lean ====
section
/-! DEFINITION. Which commands are legal spellings: the operand ranges of 30_encoding.md R74. -/

namespace Sys2Proof

/-- The operand ranges of 30_encoding.md R74: a transfer shorter than `P_XFER_MAX`, both margins below it. The widths of the
other operands are in their types. -/
def Instr.wellFormed : Instr → Bool
  | .cfgw _ _ => true
  | .cfgr _ => true
  | .rxd b => decide (b.length < Config.xferMax)
  | .txe _ _ _ _ hr tr => decide (hr < Config.xferMax) && decide (tr < Config.xferMax)

end Sys2Proof
end

