-- ==== Sys2Proof/Decode.lean ====
section
/-! DEFINITION. The decoder of command words (30_encoding.md R71 to R79), total, rejecting by name, and the encoder. -/

namespace Sys2Proof

/-- Why a command word is illegal (30_encoding.md R73, R79): a nonzero `RSV`, an opcode of no command, a `V` or a `CSR` field
that must be zero. Every one of them raises `ILLEGAL_CMD`. -/
inductive IllegalWord where
  | reservedBits
  | opcode
  | vlanBit
  | csrField
  deriving DecidableEq, Repr

/-- `OPC`, bits 3:0 (30_encoding.md R71). -/
def cwOpc (cw : Word) : BitVec 4 := cw.extractLsb' 0 4

/-- `CSR`, bits 11:4 (30_encoding.md R71). -/
def cwCsr (cw : Word) : BitVec 8 := cw.extractLsb' 4 8

/-- `V`, bit 12 (30_encoding.md R71). -/
def cwV (cw : Word) : Bool := cw.getLsbD 12

/-- `RSV`, bits 31:13 (30_encoding.md R71). -/
def cwRsv (cw : Word) : BitVec 19 := cw.extractLsb' 13 19

/-- `OP0.MSS`, bits 15:0 (30_encoding.md R75). -/
def op0Mss (op0 : Word) : BitVec 16 := op0.extractLsb' 0 16

/-- `OP0.TCI`, bits 31:16 (30_encoding.md R75). -/
def op0Tci (op0 : Word) : BitVec 16 := op0.extractLsb' 16 16

/-- The decoding procedure (30_encoding.md R78). An illegal word takes no operand (R79). -/
def decode (p : Presented) : Except IllegalWord Instr :=
  if cwRsv p.cw ≠ 0 then .error .reservedBits
  else if cwOpc p.cw = 1 then
    if cwV p.cw then .error .vlanBit else .ok (.cfgw (cwCsr p.cw) p.ops.data)
  else if cwOpc p.cw = 2 then
    if cwV p.cw then .error .vlanBit else .ok (.cfgr (cwCsr p.cw))
  else if cwOpc p.cw = 3 then
    if cwV p.cw then .error .vlanBit
    else if cwCsr p.cw ≠ 0 then .error .csrField
    else .ok (.rxd p.ops.buf)
  else if cwOpc p.cw = 4 then
    if cwCsr p.cw ≠ 0 then .error .csrField
    else .ok (.txe (cwV p.cw) (op0Mss p.ops.op0) (op0Tci p.ops.op0) p.ops.segs p.ops.hr p.ops.tr)
  else .error .opcode

/-- A command word from its four fields (30_encoding.md R71). -/
def mkCw (rsv : BitVec 19) (v : Bool) (csr : BitVec 8) (opc : BitVec 4) : Word :=
  (rsv ++ BitVec.ofBool v ++ csr ++ opc : BitVec 32)

/-- The encoder (30_encoding.md R71, R72, R75, R87): the command word and the operands of a command. -/
def encode : Instr → Presented
  | .cfgw csr data => { cw := mkCw 0 false csr 1, ops := { data := data } }
  | .cfgr csr => { cw := mkCw 0 false csr 2 }
  | .rxd b => { cw := mkCw 0 false 0 3, ops := { buf := b } }
  | .txe v mss tci segs hr tr =>
      { cw := mkCw 0 v 0 4, ops := { op0 := (tci ++ mss : BitVec 32), segs := segs, hr := hr, tr := tr } }

/-- A command word of the opcode table, presented with operands that are all zero or empty (log 13). -/
def tableWord (nbits w : Nat) : Presented := { cw := BitVec.ofNat 32 (w % 2 ^ nbits) }

/-- The instruction the decoder reads from a word numbered as spec/opcode_table.json numbers it (log 13). -/
def decodeTableWord (nbits w : Nat) : Option Instr :=
  match decode (tableWord nbits w) with
  | .ok i => some i
  | .error _ => none

end Sys2Proof
end

