-- ==== Sys2Proof/Machine/Layout.lean ====
section
/-! DEFINITION. The default values of the parameters (00_scope.md R8), what makes a `P_LAYOUT` usable (60_exceptions.md
R255), and reading and writing one field of a wire word (00_scope.md R12, 30_encoding.md R85). -/

namespace Sys2Proof.Machine

/-- The default `P_LAYOUT`: the tables of 30_encoding.md R80 to R83 (general knowledge, not in source; log 4). -/
def defaultLayout : Layout where
  rxtCnt := ⟨0, 13⟩
  rxtOff := ⟨13, 19⟩
  rxdL4err := ⟨0, 1⟩
  rxdL3err := ⟨1, 1⟩
  rxdL4t := ⟨2, 3⟩
  rxdVlan := ⟨10, 1⟩
  rxdRxok := ⟨11, 1⟩
  rxdLen := ⟨16, 15⟩
  rxdDrop := ⟨31, 1⟩
  rxdVid := ⟨32, 12⟩
  txhLen := ⟨0, 21⟩
  txhDroppad := ⟨28, 1⟩
  txhVlan := ⟨29, 1⟩
  txhMss := ⟨32, 15⟩
  txhTci := ⟨48, 16⟩
  l4Udp := 1
  l4Tcp := 4

/-- The default parameters (00_scope.md R8; the pad of 2 is general knowledge, not in source, log 4). -/
def defaultParams : Params where
  rxHwPad := 2
  skipCsumErr := true
  layout := defaultLayout

/-- Two fields of one word that share no bit. -/
def fieldsApart (f g : Field) : Bool :=
  decide (f.lo + f.width ≤ g.lo) || decide (g.lo + g.width ≤ f.lo)

/-- No field of the list shares a bit with a later one. -/
def allApart : List Field → Bool
  | [] => true
  | f :: fs => fs.all (fieldsApart f) && allApart fs

/-- The field has the width the spec gives it and lies within the 64 bits of a wire word. -/
def fieldFits (f : Field) (width : Nat) : Bool :=
  decide (f.width = width) && decide (f.lo + f.width ≤ 64)

/-- The trailer word's fields (30_encoding.md R80). -/
def trailerFields (lay : Layout) : List Field := [lay.rxtCnt, lay.rxtOff]

/-- The packet descriptor's fields (30_encoding.md R81). -/
def descFields (lay : Layout) : List Field :=
  [lay.rxdL4err, lay.rxdL3err, lay.rxdL4t, lay.rxdVlan, lay.rxdRxok, lay.rxdLen, lay.rxdDrop, lay.rxdVid]

/-- The TX header's fields (30_encoding.md R82). -/
def headerFields (lay : Layout) : List Field :=
  [lay.txhLen, lay.txhDroppad, lay.txhVlan, lay.txhMss, lay.txhTci]

/-- A `P_LAYOUT` a model does not refuse (60_exceptions.md R255): no two fields of one word overlap, and the widths are those
of 00_scope.md R9 and of the tables 30_encoding.md R80 to R82. -/
def layoutValid (lay : Layout) : Bool :=
  fieldFits lay.rxtCnt 13 && fieldFits lay.rxtOff 19
    && fieldFits lay.rxdL4err 1 && fieldFits lay.rxdL3err 1 && fieldFits lay.rxdL4t 3 && fieldFits lay.rxdVlan 1
    && fieldFits lay.rxdRxok 1 && fieldFits lay.rxdLen 15 && fieldFits lay.rxdDrop 1 && fieldFits lay.rxdVid 12
    && fieldFits lay.txhLen 21 && fieldFits lay.txhDroppad 1 && fieldFits lay.txhVlan 1 && fieldFits lay.txhMss 15
    && fieldFits lay.txhTci 16
    && allApart (trailerFields lay) && allApart (descFields lay) && allApart (headerFields lay)

/-- `w[hi:lo]` of 00_scope.md R12: `(w div 2^lo) mod 2^width`. -/
def getField (f : Field) (w : DWord) : Nat := w.toNat / 2 ^ f.lo % 2 ^ f.width

/-- A one-bit field read as a truth value. -/
def getFlag (f : Field) (w : DWord) : Bool := getField f w == 1

/-- The bits of a wire word that a field occupies. -/
def fieldMask (f : Field) : DWord := BitVec.ofNat 64 ((2 ^ f.width - 1) * 2 ^ f.lo)

/-- `w[hi:lo] <- v` of 00_scope.md R12: those bits become `v mod 2^width`, the others stay. -/
def setField (f : Field) (w : DWord) (v : Nat) : DWord :=
  (w &&& ~~~ fieldMask f) ||| BitVec.ofNat 64 (v % 2 ^ f.width * 2 ^ f.lo)

/-- `P_TX_LEN_MAX` (00_scope.md R8): the largest length the header field holds. -/
def txLenMax (lay : Layout) : Nat := 2 ^ lay.txhLen.width - 1

/-- `P_TX_MSS_MAX` (00_scope.md R8): the largest segment size the header field holds. -/
def txMssMax (lay : Layout) : Nat := 2 ^ lay.txhMss.width - 1

end Sys2Proof.Machine
end

