-- ==== Sys2Proof/Machine/State.lean ====
section
/-! DEFINITION. The state of the block (10_state.md R20), its parameters and the host's side of its port, as plain data, and
the state after reset (R38). -/

namespace Sys2Proof.Machine

/-- The register file (10_state.md R23 to R29). Each register is one 32-bit word. It is read and written through
Machine/Ops.lean only, where the reserved bits read as 0 and ignore writes. -/
structure Csr where
  rxMaxLen : Word
  rxCtrl : Word
  txMaxPkt : Word
  txCtrl : Word
  rxStatus : Word
  txStatus : Word
  deriving DecidableEq, Repr

/-- The checksum status of a delivered frame (00_scope.md R18): there is no third value. -/
inductive CsumStatus where
  | verifiedGood
  | unverified
  deriving DecidableEq, Repr

/-- A record of the frame sink, `Frame(data, csum, vlan)` (10_state.md R31). -/
structure Frame where
  data : List Byte
  csum : CsumStatus
  vlan : Option (BitVec 12)
  deriving DecidableEq, Repr

/-- `RSP`, the response of the last completed command (10_state.md R33). -/
structure Response where
  code : BitVec 4
  data : Word
  deriving DecidableEq, Repr

/-- One item of the host's stream: a command presented to the port (20_memory.md R60), or the reset it may assert between two
commands (70_reset_and_hazards.md R270, R271). -/
inductive HostEvent where
  | command (p : Presented)
  | reset
  deriving DecidableEq, Repr

/-- The host as an agent (60_exceptions.md R248, R249). -/
structure HostSide where
  /-- what the host has submitted, in the order the port accepts it (20_memory.md R60; log 1) -/
  pending : List HostEvent
  /-- the host's answers to the next draws, in the order they are asked (60_exceptions.md R252; log 5) -/
  answers : List Answer
  /-- the transfer buffer of the last `RXD` (20_memory.md R50, R69; log 7) -/
  rxBuf : List Byte
  /-- the input segments of the last `TXE`, as that command left them (20_memory.md R50, R69; log 7) -/
  txSegs : List (List Byte)
  deriving DecidableEq, Repr

/-- The state of the machine. `csr`, `fs`, `wo` and `rsp` are the block's own (10_state.md R20). -/
structure State where
  /-- the register file -/
  csr : Csr
  /-- `FS`, the frame sink, oldest record first (10_state.md R31) -/
  fs : List Frame
  /-- `WO`, the wire-out stream, oldest buffer first (10_state.md R32) -/
  wo : List (List Byte)
  /-- `RSP` (10_state.md R33) -/
  rsp : Response
  /-- the parameters of 00_scope.md R8, which no step changes (log 3) -/
  params : Params
  /-- the host's side of the port -/
  host : HostSide
  /-- the index in the command stream (10_state.md R22; log 14) -/
  position : Nat
  /-- the MODEL's own counter of free values (log 5, log 6) -/
  free : Nat
  deriving DecidableEq, Repr

/-- Nothing stops this block: every word has a decode, every transfer an outcome, and every outcome other than `OK` is an
ordinary response (60_exceptions.md R253, R254). So no fault exists, and no meaning can answer with one (log 10). -/
inductive Fault where
  deriving DecidableEq, Repr

/-- Why a step refuses. The last three are the values that 60_exceptions.md R255 asks a model to refuse. -/
inductive Refusal where
  /-- An instruction the model gives no meaning. Raised by no arm of this model. Safe. -/
  | notModelled (mnemonic : String)
  /-- An `RXD` buffer of `P_XFER_MAX` bytes or more, raised by `execRxd` (60_exceptions.md R255). Safe: the run stops. -/
  | transferTooLong
  /-- A `TXE` margin of `P_XFER_MAX` or more, raised by `execTxe` (60_exceptions.md R255). Safe: the run stops. -/
  | marginTooLarge
  /-- A `P_LAYOUT` whose fields overlap or have other widths than the spec's, raised by `execRxd` and `execTxe`
  (60_exceptions.md R255). Safe: the run stops. -/
  | layoutUnusable
  deriving DecidableEq, Repr

/-- The register file after reset (10_state.md R38). -/
def Csr.reset : Csr where
  rxMaxLen := 0
  rxCtrl := 1
  txMaxPkt := 0
  txCtrl := 0
  rxStatus := 0
  txStatus := 0

/-- The machine right after reset (10_state.md R38, 70_reset_and_hazards.md R270), with the default parameters (00_scope.md
R8) and a host that has submitted nothing (log 1, log 5, log 7, log 14). -/
def State.reset : State where
  csr := Csr.reset
  fs := []
  wo := []
  rsp := ⟨0, 0⟩
  params := defaultParams
  host := { pending := [], answers := [], rxBuf := [], txSegs := [] }
  position := 0
  free := 0

end Sys2Proof.Machine
end

