-- ==== Sys2Proof/Machine/Ops.lean ====
section
/-! DEFINITION. The named operations over buffers, registers, the response, the output streams, the host draws and reset. -/

namespace Sys2Proof.Machine

/-! ## Buffers and wire words (00_scope.md R13 to R15) -/

/-- `B[a..b)` of 00_scope.md R13, for `a <= b <= len(B)`. -/
def slice (b : List Byte) (lo hi : Nat) : List Byte := (b.drop lo).take (hi - lo)

/-- `MemRead(B, a, n)` of 00_scope.md R14. -/
def memRead (b : List Byte) (a n : Nat) : List Byte := slice b a (a + n)

/-- The value of a byte sequence, the byte at the lowest offset least significant (20_memory.md R53). -/
def leValue : List Byte → Nat
  | [] => 0
  | x :: xs => x.toNat + 256 * leValue xs

/-- `LE64(B, a)` of 00_scope.md R14. No alignment is asked (20_memory.md R55). -/
def le64 (b : List Byte) (a : Nat) : DWord := BitVec.ofNat 64 (leValue (memRead b a 8))

/-- `LEBYTES64(v)` of 00_scope.md R14: the eight bytes of `v`, bits 7:0 first. -/
def leBytes64 (v : DWord) : List Byte := (List.range 8).map fun k => v.extractLsb' (8 * k) 8

/-- `zeros(n)` of 00_scope.md R13. -/
def zeros (n : Nat) : List Byte := List.replicate n 0

/-- `round_up_to_8(x)` of 00_scope.md R15. -/
def roundUp8 (x : Nat) : Nat := 8 * ((x + 7) / 8)

/-! ## The register file (10_state.md R23 to R30) -/

/-- The six registers of 10_state.md R24 to R29. -/
inductive CsrName where
  | rxMaxLen
  | rxCtrl
  | txMaxPkt
  | txCtrl
  | rxStatus
  | txStatus
  deriving DecidableEq, Repr

/-- The defined indices (10_state.md R23, R30). -/
def csrOfIndex (i : BitVec 8) : Option CsrName :=
  if i = 0x00 then some .rxMaxLen
  else if i = 0x01 then some .rxCtrl
  else if i = 0x02 then some .txMaxPkt
  else if i = 0x03 then some .txCtrl
  else if i = 0x08 then some .rxStatus
  else if i = 0x09 then some .txStatus
  else none

/-- The index of a register (10_state.md R24 to R29, 30_encoding.md R86). -/
def csrIndex : CsrName → BitVec 8
  | .rxMaxLen => 0x00
  | .rxCtrl => 0x01
  | .txMaxPkt => 0x02
  | .txCtrl => 0x03
  | .rxStatus => 0x08
  | .txStatus => 0x09

/-- The registers `CFGW` may not write (10_state.md R28, R29). -/
def csrReadOnly : CsrName → Bool
  | .rxMaxLen => false
  | .rxCtrl => false
  | .txMaxPkt => false
  | .txCtrl => false
  | .rxStatus => true
  | .txStatus => true

/-- The bits of a register that are fields; the others are reserved (10_state.md R23 to R29, 42_control.md R201). -/
def csrMask : CsrName → Word
  | .rxMaxLen => 0x0000FFFF
  | .rxCtrl => 0x00000001
  | .txMaxPkt => 0x0000FFFF
  | .txCtrl => 0x00000001
  | .rxStatus => 0xFFFFFFFF
  | .txStatus => 0xFFFFFFFF

/-- The word a register holds. -/
def csrWord (c : Csr) : CsrName → Word
  | .rxMaxLen => c.rxMaxLen
  | .rxCtrl => c.rxCtrl
  | .txMaxPkt => c.txMaxPkt
  | .txCtrl => c.txCtrl
  | .rxStatus => c.rxStatus
  | .txStatus => c.txStatus

/-- Reading a register: a reserved bit reads as 0 (10_state.md R23). -/
def csrRead (c : Csr) (r : CsrName) : Word := csrWord c r &&& csrMask r

/-- Writing a register: a write to a reserved bit is ignored, so it stays 0 (10_state.md R23, 42_control.md R201). -/
def csrWrite (c : Csr) (r : CsrName) (v : Word) : Csr :=
  match r with
  | .rxMaxLen => { c with rxMaxLen := v &&& csrMask .rxMaxLen }
  | .rxCtrl => { c with rxCtrl := v &&& csrMask .rxCtrl }
  | .txMaxPkt => { c with txMaxPkt := v &&& csrMask .txMaxPkt }
  | .txCtrl => { c with txCtrl := v &&& csrMask .txCtrl }
  | .rxStatus => { c with rxStatus := v &&& csrMask .rxStatus }
  | .txStatus => { c with txStatus := v &&& csrMask .txStatus }

/-- The configuration snapshot (10_state.md R35, 20_memory.md R61). -/
structure Snapshot where
  /-- `RX_MAX_LEN.MAXLEN` -/
  maxLen : Nat
  /-- `RX_CTRL.RX_CSUM_EN` -/
  csumEn : Bool
  /-- `TX_MAX_PKT.MAXPKT` -/
  maxPkt : Nat
  /-- `TX_CTRL.TX_SG_OK` -/
  sgOk : Bool
  deriving DecidableEq, Repr

/-- The four configuration registers, read once (20_memory.md R61, 10_state.md R24 to R27). -/
def takeSnapshot (c : Csr) : Snapshot where
  maxLen := ((csrRead c .rxMaxLen).extractLsb' 0 16).toNat
  csumEn := (csrRead c .rxCtrl).getLsbD 0
  maxPkt := ((csrRead c .txMaxPkt).extractLsb' 0 16).toNat
  sgOk := (csrRead c .txCtrl).getLsbD 0

/-! ## Responses (30_encoding.md R76, R77) -/

/-- The response codes of 30_encoding.md R76. Codes 9 to 15 are never produced. -/
inductive RspCode where
  | ok
  | illegalCmd
  | badCsr
  | roWrite
  | badConfig
  | badOperand
  | rxDiscard
  | txLinearizeFail
  | txAllocFail
  deriving DecidableEq, Repr

/-- The 4-bit value of a response code (30_encoding.md R76). -/
def codeBits : RspCode → BitVec 4
  | .ok => 0
  | .illegalCmd => 1
  | .badCsr => 2
  | .roWrite => 3
  | .badConfig => 4
  | .badOperand => 5
  | .rxDiscard => 6
  | .txLinearizeFail => 7
  | .txAllocFail => 8

/-- The command ends with this response (10_state.md R33). -/
def respond (c : RspCode) (data : Word) (s : State) : State := { s with rsp := ⟨codeBits c, data⟩ }

/-- `raise <Code>`, the one way a command ends without success (00_scope.md R16, 60_exceptions.md R239): the response carries
the code and data 0 (30_encoding.md R77). Nothing is saved, no mode changes, control goes nowhere. A status register that the
command's rule names is written by the caller. -/
def raiseCode (c : RspCode) (s : State) : State := respond c 0 s

/-- An illegal command word: `RSP <- {1, 0}`, and no other state changes (30_encoding.md R79). -/
def illegalCommand (s : State) : State := raiseCode .illegalCmd s

/-! ## Output streams (10_state.md R31, R32) -/

/-- `emit Frame(...)`, once per record, in order (10_state.md R31, 20_memory.md R62). -/
def emitFrames (frames : List Frame) (s : State) : State := { s with fs := s.fs ++ frames }

/-- `emit Wire(x)` (10_state.md R32, 20_memory.md R63). -/
def emitWire (x : List Byte) (s : State) : State := { s with wo := s.wo ++ [x] }

/-! ## Status registers, written by their engine only (10_state.md R23) -/

/-- `RX_STATUS <- v`, by the RX engine. -/
def writeRxStatus (v : Word) (s : State) : State := { s with csr := csrWrite s.csr .rxStatus v }

/-- `TX_STATUS <- v`, by the TX engine. -/
def writeTxStatus (v : Word) (s : State) : State := { s with csr := csrWrite s.csr .txStatus v }

/-! ## The host's draws and buffers (60_exceptions.md R252, 20_memory.md R69) -/

/-- `draw d`: the host's next answer; a free value where State holds none (60_exceptions.md R252, log 5). -/
def drawAnswer (d : Draw) (s : State) : Answer × State :=
  match s.host.answers with
  | a :: rest => (a, { s with host := { s.host with answers := rest } })
  | [] => (Config.hostAnswer d s.free, { s with free := s.free + 1 })

/-- The transfer buffer of an `RXD` holds `b` before and after the command: the engine does not modify it (20_memory.md R69). -/
def holdTransfer (b : List Byte) (s : State) : State := { s with host := { s.host with rxBuf := b } }

/-- What input segments of these lengths hold after the `TXE` numbered `n`: unspecified bytes (20_memory.md R69, log 6). -/
def usedSegments (n : Nat) (segs : List (List Byte)) : List (List Byte) :=
  segs.mapIdx fun i seg => seg.mapIdx fun j _ => Config.segmentByte n i j

/-- A `TXE`, whatever its outcome, leaves its input segments unspecified (20_memory.md R69, 70_reset_and_hazards.md R276). -/
def useSegments (segs : List (List Byte)) (s : State) : State :=
  { s with host := { s.host with txSegs := usedSegments s.free segs }, free := s.free + 1 }

/-! ## Reset and the command stream -/

/-- Reset, asserted by the host between two commands (70_reset_and_hazards.md R270, 10_state.md R38). The parameters, the
host's side, the stream index and the counter of free values are not the block's to reset (log 15). -/
def hostReset (s : State) : State := { s with csr := Csr.reset, fs := [], wo := [], rsp := ⟨0, 0⟩ }

/-- The stream without the item that the port takes now. -/
def setPending (rest : List HostEvent) (s : State) : State := { s with host := { s.host with pending := rest } }

/-- A completed command moves the stream on by one (10_state.md R22). -/
def completeCommand (s : State) : State := { s with position := s.position + 1 }

end Sys2Proof.Machine
end

