-- ==== Sys2Proof/Machine/Control.lean ====
section
/-! DEFINITION. The control commands `CFGW` and `CFGR` (42_control.md), which the port executes itself. -/

namespace Sys2Proof.Machine

/-- `CFGW` (42_control.md R200 to R203). -/
def execCfgw (csr : BitVec 8) (data : Word) (s : State) : Host.Outcome State Fault Refusal :=
  match csrOfIndex csr with
  | none => .next (raiseCode .badCsr s)
  | some r =>
    if csrReadOnly r then .next (raiseCode .roWrite s)
    else .next (respond .ok 0 { s with csr := csrWrite s.csr r data })

/-- `CFGR` (42_control.md R204 to R206). The read has no side effect. -/
def execCfgr (csr : BitVec 8) (s : State) : Host.Outcome State Fault Refusal :=
  match csrOfIndex csr with
  | none => .next (raiseCode .badCsr s)
  | some r => .next (respond .ok (csrRead s.csr r) s)

end Sys2Proof.Machine
end

