-- ==== Sys2Proof/Machine/Operands.lean ====
section
/-! DEFINITION. The operand forms of the engines: the trailer word and the descriptors of a transfer, the frame of a `TXE`, its
header and its padding. -/

namespace Sys2Proof.Machine

/-! ## RX: the trailer word and the packet descriptors -/

/-- The trailer word, the last eight bytes of the transfer (40_rx_reassembly.md R113). -/
def trailerWord (b : List Byte) : DWord := le64 b (b.length - 8)

/-- `packet_count` (30_encoding.md R80). -/
def packetCount (lay : Layout) (t : DWord) : Nat := getField lay.rxtCnt t

/-- `trailer_offset`, the offset of the first packet descriptor (30_encoding.md R80). -/
def trailerOffset (lay : Layout) (t : DWord) : Nat := getField lay.rxtOff t

/-- The L4 types of 30_encoding.md R83. -/
inductive L4Type where
  | tcp
  | udp
  | other
  deriving DecidableEq, Repr, Inhabited

/-- The L4 type of a code of the field `RXD_L4T` (30_encoding.md R83). -/
def l4TypeOf (lay : Layout) (code : Nat) : L4Type :=
  if code = lay.l4Tcp then .tcp else if code = lay.l4Udp then .udp else .other

/-- The decoded fields of a packet descriptor (40_rx_reassembly.md R118). The padded length is not one of them; it is computed
(90_conflicts.md C2). -/
structure Desc where
  len : Nat
  drop : Bool
  rxok : Bool
  l3err : Bool
  l4err : Bool
  l4t : L4Type
  vlan : Bool
  vid : BitVec 12
  deriving DecidableEq, Repr, Inhabited

/-- The decode of one descriptor word (40_rx_reassembly.md R118, 30_encoding.md R81). Unused bits are ignored (R84). -/
def decodeDesc (lay : Layout) (w : DWord) : Desc where
  len := getField lay.rxdLen w
  drop := getFlag lay.rxdDrop w
  rxok := getFlag lay.rxdRxok w
  l3err := getFlag lay.rxdL3err w
  l4err := getFlag lay.rxdL4err w
  l4t := l4TypeOf lay (getField lay.rxdL4t w)
  vlan := getFlag lay.rxdVlan w
  vid := BitVec.ofNat 12 (getField lay.rxdVid w)

/-- The descriptors `D_0 .. D_{pc-1}` of the array at `off` (40_rx_reassembly.md R117). -/
def descriptors (lay : Layout) (b : List Byte) (off pc : Nat) : List Desc :=
  (List.range pc).map fun i => decodeDesc lay (le64 b (off + 8 * i))

/-! ## TX: the frame, its padding and its header -/

/-- The frame `F = concat(SEGS)` (30_encoding.md R75, 41_tx_framing.md R160). -/
def frameBytes (segs : List (List Byte)) : List Byte := segs.flatten

/-- The padding that rounds header and frame up to 8 bytes (41_tx_framing.md R165, before the guard). -/
def basePadding (n : Nat) : Nat := if (n + 8) % 8 ≠ 0 then 8 - (n + 8) % 8 else 0

/-- Whether the zero-length-packet guard fires, which is the header's drop-padding flag (41_tx_framing.md R165). -/
def guardFires (n m : Nat) : Bool := (n + 8 + basePadding n) % m == 0

/-- The padding of a frame of `n` bytes for the packet size `m` (41_tx_framing.md R165). -/
def paddingFor (n m : Nat) : Nat := if guardFires n m then basePadding n + 8 else basePadding n

/-- The descriptor header (41_tx_framing.md R163 to R165, 30_encoding.md R82). Every bit outside a named field is 0. -/
def txHeader (lay : Layout) (v : Bool) (mss tci : BitVec 16) (n m : Nat) : DWord :=
  let h := setField lay.txhMss (setField lay.txhLen 0 n) mss.toNat
  let h := if v then setField lay.txhTci (setField lay.txhVlan h 1) tci.toNat else h
  if guardFires n m then setField lay.txhDroppad h 1 else h

/-- The wire buffer `LEBYTES64(H) ++ F ++ zeros(pad)` (41_tx_framing.md R168, 20_memory.md R52). -/
def wireBuffer (h : DWord) (f : List Byte) (pad : Nat) : List Byte := leBytes64 h ++ f ++ zeros pad

end Sys2Proof.Machine
end

