-- ==== Sys2Proof/Machine/Flags.lean ====
section
/-! DEFINITION. The block has no condition codes (10_state.md R36). What stands in their place: the accept test and the checksum
status computed from a descriptor's flags, and the words of the two status registers. -/

namespace Sys2Proof.Machine

/-! ## Per-frame flags -/

/-- The accept test (40_rx_reassembly.md R124). -/
def accepts (p : Params) (maxLen : Nat) (d : Desc) : Bool :=
  !d.drop && d.rxok && !(p.skipCsumErr && (d.l3err || d.l4err))
    && decide (d.len ≤ maxLen + p.rxHwPad) && decide (p.rxHwPad ≤ d.len)

/-- The checksum status of an accepted descriptor (40_rx_reassembly.md R126). -/
def csumOf (csumEn : Bool) (d : Desc) : CsumStatus :=
  if csumEn && !d.l3err && !d.l4err && (d.l4t == .tcp || d.l4t == .udp) then .verifiedGood else .unverified

/-- The VLAN tag of an accepted descriptor (40_rx_reassembly.md R127). -/
def vlanOf (d : Desc) : Option (BitVec 12) := if d.vlan then some d.vid else none

/-! ## `RX_STATUS` (10_state.md R28) -/

/-- The discard reasons (60_exceptions.md R231). -/
inductive Reason where
  | short
  | offsetMismatch
  | offsetRange
  | zeroCount
  | overrun
  | sumMismatch
  deriving DecidableEq, Repr

/-- `code(x)` of a discard reason (60_exceptions.md R231). Code 0 is `NONE`, success. -/
def reasonBits : Reason → BitVec 4
  | .short => 1
  | .offsetMismatch => 2
  | .offsetRange => 3
  | .zeroCount => 4
  | .overrun => 5
  | .sumMismatch => 6

/-- The word of `RX_STATUS` with these fields (10_state.md R28). -/
def rxStatusWord (reason : BitVec 4) (discard valid : Bool) (delivered skipped : Nat) : Word :=
  (BitVec.ofNat 13 skipped ++ BitVec.ofNat 13 delivered ++ BitVec.ofBool valid ++ BitVec.ofBool discard ++ reason :
    BitVec 32)

/-- `RX_STATUS.REASON`, bits 3:0 (10_state.md R28). -/
def rxReason (w : Word) : BitVec 4 := w.extractLsb' 0 4

/-- `RX_STATUS.DISCARD`, bit 4 (10_state.md R28). -/
def rxDiscardBit (w : Word) : Bool := w.getLsbD 4

/-- `RX_STATUS.VALID`, bit 5 (10_state.md R28). -/
def rxValidBit (w : Word) : Bool := w.getLsbD 5

/-- `RX_STATUS.DELIVERED`, bits 18:6 (10_state.md R28). -/
def rxDelivered (w : Word) : Nat := (w.extractLsb' 6 13).toNat

/-- `RX_STATUS.SKIPPED`, bits 31:19 (10_state.md R28). -/
def rxSkipped (w : Word) : Nat := (w.extractLsb' 19 13).toNat

/-! ## `TX_STATUS` (10_state.md R29) -/

/-- The two resource failures of a `TXE` (60_exceptions.md R234). -/
inductive TxFailure where
  | linearize
  | alloc
  deriving DecidableEq, Repr

/-- `TX_STATUS.FAIL` of a failure (10_state.md R29). -/
def failBits : TxFailure → BitVec 2
  | .linearize => 1
  | .alloc => 2

/-- The response code of a failure (30_encoding.md R76). -/
def failCode : TxFailure → RspCode
  | .linearize => .txLinearizeFail
  | .alloc => .txAllocFail

/-- The word of `TX_STATUS` with these fields (10_state.md R29). -/
def txStatusWord (valid failed : Bool) (fail : BitVec 2) (dropPadd : Bool) (padding encLen : Nat) : Word :=
  (BitVec.ofNat 23 encLen ++ BitVec.ofNat 4 padding ++ BitVec.ofBool dropPadd ++ fail ++ BitVec.ofBool failed
    ++ BitVec.ofBool valid : BitVec 32)

/-- `TX_STATUS.VALID`, bit 0 (10_state.md R29). -/
def txValidBit (w : Word) : Bool := w.getLsbD 0

/-- `TX_STATUS.FAILED`, bit 1 (10_state.md R29). -/
def txFailedBit (w : Word) : Bool := w.getLsbD 1

/-- `TX_STATUS.FAIL`, bits 3:2 (10_state.md R29). -/
def txFail (w : Word) : BitVec 2 := w.extractLsb' 2 2

/-- `TX_STATUS.DROP_PADD`, bit 4 (10_state.md R29). -/
def txDropPadd (w : Word) : Bool := w.getLsbD 4

/-- `TX_STATUS.PADDING`, bits 8:5 (10_state.md R29). -/
def txPadding (w : Word) : Nat := (w.extractLsb' 5 4).toNat

/-- `TX_STATUS.ENC_LEN`, bits 31:9 (10_state.md R29). -/
def txEncLen (w : Word) : Nat := (w.extractLsb' 9 23).toNat

end Sys2Proof.Machine
end

