-- ==== Sys2Proof/Machine/Rx.lean ====
section
/-! DEFINITION. The RX frame reassembly engine, `RXD` (40_rx_reassembly.md R110 to R134): a validation phase over the whole
descriptor table, and only then a delivery phase (R111). -/

namespace Sys2Proof.Machine

/-- A frame slot of a transfer: its start in the data area and its descriptor (40_rx_reassembly.md R119). -/
structure Slot where
  start : Nat
  desc : Desc
  deriving DecidableEq, Repr

/-- The slot walk from `consumed` on, with the overrun check at each descriptor and the sum check at the end
(40_rx_reassembly.md R119 to R121). -/
def walkSlots (off : Nat) : List Desc → Nat → Except Reason (List Slot)
  | [], consumed => if consumed ≠ off then .error .sumMismatch else .ok []
  | d :: ds, consumed =>
    if off < consumed + roundUp8 d.len then .error .overrun
    else match walkSlots off ds (consumed + roundUp8 d.len) with
      | .error r => .error r
      | .ok slots => .ok (⟨consumed, d⟩ :: slots)

/-- The validation phase after the configuration check (40_rx_reassembly.md R112 step 2 to R121, in the order of
60_exceptions.md R235): the first failing check's reason, or the slots of the transfer. -/
def validateTransfer (lay : Layout) (b : List Byte) : Except Reason (List Slot) :=
  if b.length < 8 then .error .short
  else
    let pc := packetCount lay (trailerWord b)
    let off := trailerOffset lay (trailerWord b)
    if b.length < 8 * (pc + 1) ∨ off ≠ b.length - 8 * (pc + 1) then .error .offsetMismatch
    else if ¬ off < b.length then .error .offsetRange
    else if pc = 0 then .error .zeroCount
    else walkSlots off (descriptors lay b off pc) 0

/-- The frame of an accepted slot (40_rx_reassembly.md R125 to R127). -/
def frameOf (pad : Nat) (csumEn : Bool) (b : List Byte) (sl : Slot) : Frame where
  data := slice b (sl.start + pad) (sl.start + sl.desc.len)
  csum := csumOf csumEn sl.desc
  vlan := vlanOf sl.desc

/-- The frames a valid transfer delivers, in ascending descriptor index (40_rx_reassembly.md R123, R124, R128). -/
def deliveredFrames (p : Params) (c : Snapshot) (b : List Byte) (slots : List Slot) : List Frame :=
  (slots.filter fun sl => accepts p c.maxLen sl.desc).map (frameOf p.rxHwPad c.csumEn b)

/-- A discarded transfer (40_rx_reassembly.md R122). -/
def discardTransfer (r : Reason) (s : State) : State :=
  raiseCode .rxDiscard (writeRxStatus (rxStatusWord (reasonBits r) true true 0 0) s)

/-- The delivery phase and its result (40_rx_reassembly.md R123 to R130). -/
def deliverTransfer (c : Snapshot) (b : List Byte) (slots : List Slot) (s : State) : State :=
  let frames := deliveredFrames s.params c b slots
  respond .ok (BitVec.ofNat 32 frames.length)
    (writeRxStatus (rxStatusWord 0 false true frames.length (slots.length - frames.length)) (emitFrames frames s))

/-- `RXD` on a transfer within the operand range (40_rx_reassembly.md R131). -/
def rxdCommand (b : List Byte) (s : State) : State :=
  let c := takeSnapshot s.csr
  if c.maxLen = 0 then raiseCode .badConfig s
  else match validateTransfer s.params.layout b with
    | .error r => discardTransfer r s
    | .ok slots => deliverTransfer c b slots s

/-- `RXD` (40_rx_reassembly.md R110). A transfer of `P_XFER_MAX` bytes or more and an unusable layout are refused
(60_exceptions.md R255). -/
def execRxd (b : List Byte) (s : State) : Host.Outcome State Fault Refusal :=
  if Config.xferMax ≤ b.length then .refused .transferTooLong
  else if layoutValid s.params.layout then .next (rxdCommand b (holdTransfer b s))
  else .refused .layoutUnusable

end Sys2Proof.Machine
end

