-- ==== Sys2Proof/Machine/Tx.lean ====
section
/-! DEFINITION. The TX frame-to-packet encoder, `TXE` (41_tx_framing.md R160 to R174). -/

namespace Sys2Proof.Machine

/-- Linearization: a frame of more than one segment, without scatter-gather, asks the host; otherwise no draw is made
(41_tx_framing.md R166). -/
def linearizeStep (segs : List (List Byte)) (sgOk : Bool) (s : State) : Answer × State :=
  if decide (1 < segs.length) && !sgOk then drawAnswer .lin s else (.ok, s)

/-- Margins: with too little leading or trailing space the host is asked for a copy; otherwise no draw is made
(41_tx_framing.md R167). -/
def marginStep (hr tr pad : Nat) (s : State) : Answer × State :=
  if hr < 8 ∨ tr < pad then drawAnswer .alloc s else (.ok, s)

/-- A frame dropped for want of a resource (41_tx_framing.md R166, R167). -/
def failTransmit (f : TxFailure) (s : State) : State :=
  raiseCode (failCode f) (writeTxStatus (txStatusWord true true (failBits f) false 0 0) s)

/-- The encoded frame goes out (41_tx_framing.md R168 to R170). -/
def finishTransmit (h : DWord) (f : List Byte) (drop : Bool) (pad : Nat) (s : State) : State :=
  respond .ok (BitVec.ofNat 32 (8 + f.length + pad))
    (writeTxStatus (txStatusWord true false 0 drop pad (8 + f.length + pad)) (emitWire (wireBuffer h f pad) s))

/-- `TXE` on margins within the operand range (41_tx_framing.md R171). With enough leading and trailing space it may still fail
for a linearization: R166 and R171 say so, one corner case of R172 says otherwise (log 22). -/
def txeCommand (v : Bool) (mss tci : BitVec 16) (segs : List (List Byte)) (hr tr : Nat) (s : State) : State :=
  let c := takeSnapshot s.csr
  let f := frameBytes segs
  let pad := paddingFor f.length c.maxPkt
  if c.maxPkt ≤ 8 then raiseCode .badConfig s
  else if txLenMax s.params.layout < f.length ∨ txMssMax s.params.layout < mss.toNat then raiseCode .badOperand s
  else match linearizeStep segs c.sgOk s with
    | (.fail, s1) => failTransmit .linearize s1
    | (.ok, s1) => match marginStep hr tr pad s1 with
      | (.fail, s2) => failTransmit .alloc s2
      | (.ok, s2) =>
        finishTransmit (txHeader s.params.layout v mss tci f.length c.maxPkt) f (guardFires f.length c.maxPkt) pad s2

/-- `TXE` (41_tx_framing.md R160). A margin of `P_XFER_MAX` or more and an unusable layout are refused (60_exceptions.md
R255). Whatever the outcome, the input segments are unspecified afterwards (20_memory.md R69). -/
def execTxe (v : Bool) (mss tci : BitVec 16) (segs : List (List Byte)) (hr tr : Nat) (s : State) :
    Host.Outcome State Fault Refusal :=
  if Config.xferMax ≤ hr ∨ Config.xferMax ≤ tr then .refused .marginTooLarge
  else if layoutValid s.params.layout then .next (txeCommand v mss tci segs hr tr (useSegments segs s))
  else .refused .layoutUnusable

end Sys2Proof.Machine
end

