-- ==== Sys2Proof/Machine/Dispatch.lean ====
section
/-! DEFINITION. One arm per command of spec/opcode_table.json. -/

namespace Sys2Proof.Machine

def exec (i : Instr) (s : State) : Host.Outcome State Fault Refusal :=
  match i with
  | .cfgw csr data => Sys2Proof.Machine.execCfgw csr data s
  | .cfgr csr => Sys2Proof.Machine.execCfgr csr s
  | .rxd b => Sys2Proof.Machine.execRxd b s
  | .txe v mss tci segs hr tr => Sys2Proof.Machine.execTxe v mss tci segs hr tr s

end Sys2Proof.Machine
end

