-- ==== Sys2Proof/Machine/Port.lean ====
section
/-! DEFINITION. The command port (60_exceptions.md R248): it takes the next item of the host's stream and runs it whole. -/

namespace Sys2Proof.Machine

/-- A command that completed moves the stream on; a refusal completes nothing (10_state.md R22). -/
def completed (o : Host.Outcome State Fault Refusal) : Host.Outcome State Fault Refusal :=
  match o with
  | .next s => .next (completeCommand s)
  | .fault f => .fault f
  | .refused r => .refused r

/-- One presented command: decoded and executed, or illegal (30_encoding.md R78, R79, 60_exceptions.md R237). -/
def runPresented (p : Presented) (s : State) : Host.Outcome State Fault Refusal :=
  match decode p with
  | .error _ => completed (.next (illegalCommand s))
  | .ok i => completed (exec i s)

/-- One step of the port (20_memory.md R60, 70_reset_and_hazards.md R271). With nothing pending the block does nothing
(60_exceptions.md R250, log 2). -/
def portStep (s : State) : Host.Outcome State Fault Refusal :=
  match s.host.pending with
  | [] => .next s
  | .reset :: rest => .next (hostReset (setPending rest s))
  | .command p :: rest => runPresented p (setPending rest s)

/-- The stream with one more command in front, which the next step takes (log 13). -/
def presentNext (p : Presented) (s : State) : State := setPending (.command p :: s.host.pending) s

end Sys2Proof.Machine
end

