-- ==== Sys2Proof/Machine/Step.lean ====
section
/-! DEFINITION. One step of the machine: one whole command of the host's stream (60_exceptions.md R248). -/

namespace Sys2Proof.Machine

/-- One step (20_memory.md R60, 60_exceptions.md R248). -/
def step (s : State) : Host.Outcome State Fault Refusal := portStep s

/-- The state with a command word of the opcode table, its operands zero or empty, presented next (log 13). -/
def State.withFetchWord (s : State) (nbits w : Nat) : State := presentNext (tableWord nbits w) s

end Sys2Proof.Machine
end

