-- ==== Sys2Proof/Machine/Asm.lean ====
section
/-! DEFINITION. The assembler forms of 30_encoding.md R86 to R88 as terms, and what they assemble to. -/

namespace Sys2Proof.Machine

/-- `<csr>`: a register name or a number 0..255 (30_encoding.md R86). -/
inductive AsmCsr where
  | name (r : CsrName)
  | number (i : BitVec 8)
  deriving DecidableEq, Repr

/-- `<buffer>`: a byte list or a named buffer (30_encoding.md R86). -/
inductive AsmBuffer where
  | bytes (b : List Byte)
  | named (label : String)
  deriving DecidableEq, Repr

/-- One line of the syntax (30_encoding.md R86) or the pseudo-instruction (R88). `segs` is one buffer or several. -/
inductive AsmLine where
  | cfgw (csr : AsmCsr) (value : Word)
  | cfgr (csr : AsmCsr)
  | rxd (buffer : AsmBuffer)
  | txe (segs : List AsmBuffer) (mss : BitVec 16) (vlan : Option (BitVec 16)) (hr tr : Option Nat)
  | cfginit (maxlen csum maxpkt sg : Word)
  deriving DecidableEq, Repr

/-- The index a register operand stands for (30_encoding.md R86). -/
def asmCsrIndex : AsmCsr → BitVec 8
  | .name r => csrIndex r
  | .number i => i

/-- The bytes of a buffer operand, where the table of named buffers gives them. -/
def asmBytes (table : List (String × List Byte)) : AsmBuffer → Option (List Byte)
  | .bytes b => some b
  | .named label => table.lookup label

/-- The commands of one line (30_encoding.md R86 to R88): `hr` defaults to 8 and `tr` to 16; `vlan=` present gives `V = 1`, absent
`V = 0` and `TCI = 0`. None where a buffer has no such name. -/
def asmInstrs (table : List (String × List Byte)) : AsmLine → Option (List Instr)
  | .cfgw csr value => some [.cfgw (asmCsrIndex csr) value]
  | .cfgr csr => some [.cfgr (asmCsrIndex csr)]
  | .rxd buffer => (asmBytes table buffer).map fun b => [.rxd b]
  | .txe segs mss vlan hr tr =>
    (segs.mapM (asmBytes table)).map fun bs => [.txe vlan.isSome mss (vlan.getD 0) bs (hr.getD 8) (tr.getD 16)]
  | .cfginit maxlen csum maxpkt sg =>
    some [.cfgw (csrIndex .rxMaxLen) maxlen, .cfgw (csrIndex .rxCtrl) csum, .cfgw (csrIndex .txMaxPkt) maxpkt,
      .cfgw (csrIndex .txCtrl) sg]

/-- What the host presents for one line (30_encoding.md R87). -/
def assemble (table : List (String × List Byte)) (l : AsmLine) : Option (List Presented) :=
  (asmInstrs table l).map fun is => is.map encode

end Sys2Proof.Machine
end

