-- ==== Sys2Proof/Safety.lean ====
section
/-! DEFINITION. What a good state is: the invariant that every step keeps, part by part, in the terms claims use. -/

namespace Sys2Proof.Machine

/-- The eight bytes from offset `a` on as a number, `sum over k in 0..7 of B[a+k] * 2^(8k)` (00_scope.md R14), written out apart
from the primitives that read and write wire words. -/
def bytesAsNumber (b : List Byte) (a : Nat) : Nat :=
  ((List.range 8).map fun k => (b.getD (a + k) 0).toNat * 2 ^ (8 * k)).sum

/-- `consumed_k`, the padded lengths of the first `k` descriptors together (40_rx_reassembly.md R119). -/
def consumedUpTo (ds : List Desc) (k : Nat) : Nat := ((ds.take k).map fun d => roundUp8 d.len).sum

/-- `RX_MAX_LEN.MAXLEN`, bits 15:0 (10_state.md R24). -/
def cfgMaxLen (s : State) : Nat := (s.csr.rxMaxLen.extractLsb' 0 16).toNat

/-- `RX_CTRL.RX_CSUM_EN`, bit 0 (10_state.md R25). -/
def cfgCsumEn (s : State) : Bool := s.csr.rxCtrl.getLsbD 0

/-- `TX_MAX_PKT.MAXPKT`, bits 15:0 (10_state.md R26). -/
def cfgMaxPkt (s : State) : Nat := (s.csr.txMaxPkt.extractLsb' 0 16).toNat

/-- `TX_CTRL.TX_SG_OK`, bit 0 (10_state.md R27). -/
def cfgSgOk (s : State) : Bool := s.csr.txCtrl.getLsbD 0

/-- The frame that descriptor `i` of the array `ds` delivers from the transfer `b`, if it is accepted (40_rx_reassembly.md R124
to R127). -/
def frameAt (s : State) (b : List Byte) (ds : List Desc) (i : Nat) : Option Frame :=
  (ds[i]?).bind fun d =>
    if d.drop = false ∧ d.rxok = true ∧ ¬ (s.params.skipCsumErr = true ∧ (d.l3err = true ∨ d.l4err = true))
        ∧ d.len ≤ cfgMaxLen s + s.params.rxHwPad ∧ s.params.rxHwPad ≤ d.len then
      some
        { data := slice b (consumedUpTo ds i + s.params.rxHwPad) (consumedUpTo ds i + d.len)
          csum := if cfgCsumEn s = true ∧ d.l3err = false ∧ d.l4err = false ∧ (d.l4t = .tcp ∨ d.l4t = .udp)
            then .verifiedGood else .unverified
          vlan := if d.vlan then some d.vid else none }
    else none

/-- The descriptors of a transfer, read where its trailer word says (40_rx_reassembly.md R113, R117). -/
def transferDescs (lay : Layout) (b : List Byte) : List Desc :=
  descriptors lay b (trailerOffset lay (trailerWord b)) (packetCount lay (trailerWord b))

/-- The transfer is consistent: long enough for its trailer, the descriptor array exactly between the data area and the trailer
word, at least one descriptor, and padded lengths that add up to the trailer offset (20_memory.md R51, 40_rx_reassembly.md
R112 to R121). -/
def transferConsistent (lay : Layout) (b : List Byte) : Prop :=
  8 ≤ b.length
    ∧ b.length = trailerOffset lay (trailerWord b) + 8 * (packetCount lay (trailerWord b) + 1)
    ∧ 0 < packetCount lay (trailerWord b)
    ∧ consumedUpTo (transferDescs lay b) (packetCount lay (trailerWord b)) = trailerOffset lay (trailerWord b)

/-- The draws a frame asks for: `LIN` for several segments without scatter-gather (41_tx_framing.md R166), `ALLOC` for margins
too small (R167). -/
def drawsNeeded (segs : List (List Byte)) (sgOk : Bool) (hr tr pad : Nat) : Nat :=
  (if 1 < segs.length ∧ sgOk = false then 1 else 0) + (if hr < 8 ∨ tr < pad then 1 else 0)

/-- The reserved bits of the configuration registers are 0 (10_state.md R23 to R27). -/
def reservedClear (c : Csr) : Prop :=
  c.rxMaxLen &&& 0xFFFF0000 = 0 ∧ c.rxCtrl &&& 0xFFFFFFFE = 0 ∧ c.txMaxPkt &&& 0xFFFF0000 = 0
    ∧ c.txCtrl &&& 0xFFFFFFFE = 0

/-- `RX_STATUS` is 0 as after reset, or the record of a discard (60_exceptions.md R231; never reason 3, 40_rx_reassembly.md
R115), or the record of a success (40_rx_reassembly.md R130). -/
def rxStatusLegal (w : Word) : Prop :=
  w = 0
    ∨ (rxValidBit w = true ∧ rxDiscardBit w = true ∧ rxReason w ∈ [1, 2, 4, 5, 6] ∧ rxDelivered w = 0 ∧ rxSkipped w = 0)
    ∨ (rxValidBit w = true ∧ rxDiscardBit w = false ∧ rxReason w = 0
        ∧ 1 ≤ rxDelivered w + rxSkipped w ∧ rxDelivered w + rxSkipped w ≤ 8191)

/-- `TX_STATUS` is 0 as after reset, or the record of a failure (41_tx_framing.md R166, R167), or the record of a success
(R170): the encoded length a multiple of 8 that counts the header and the padding, the drop-padding flag set exactly when the
padding is 8 or more. -/
def txStatusLegal (w : Word) : Prop :=
  w = 0
    ∨ (txValidBit w = true ∧ txFailedBit w = true ∧ txFail w ∈ [1, 2] ∧ txDropPadd w = false ∧ txPadding w = 0
        ∧ txEncLen w = 0)
    ∨ (txValidBit w = true ∧ txFailedBit w = false ∧ txFail w = 0 ∧ txEncLen w % 8 = 0 ∧ 8 + txPadding w ≤ txEncLen w
        ∧ (txDropPadd w = true ↔ 8 ≤ txPadding w))

/-- The response is one the block produces: codes 9 to 15 never, and data 0 with every code but `OK` (30_encoding.md R76, R77). -/
def responseLegal (r : Response) : Prop := r.code.toNat ≤ 8 ∧ (r.code ≠ 0 → r.data = 0)

/-- A frame of the sink is shorter than the 15-bit descriptor length allows (30_encoding.md R81, 40_rx_reassembly.md R125). -/
def frameLegal (f : Frame) : Prop := f.data.length ≤ 32767

/-- A buffer of the wire-out stream is a multiple of 8 bytes and holds at least its header (41_tx_framing.md R168, R173). -/
def wireLegal (x : List Byte) : Prop := 8 ≤ x.length ∧ x.length % 8 = 0

/-- A good state: every register, stream and response is one the block can hold. -/
structure State.Good (s : State) : Prop where
  reserved : reservedClear s.csr
  rxStatus : rxStatusLegal s.csr.rxStatus
  txStatus : txStatusLegal s.csr.txStatus
  response : responseLegal s.rsp
  frames : ∀ f ∈ s.fs, frameLegal f
  wires : ∀ x ∈ s.wo, wireLegal x

end Sys2Proof.Machine
end

