-- ==== Sys2Proof/Certificates/Slice0/Obligations.lean ====
section
/-! DEFINITION. The statements for the provers. Each docstring names the rule of spec/ the statement formalises. -/

open Sys2Proof Sys2Proof.Machine

/-! ## Encoding -/

/-- 30_encoding.md R78, R87: the decoder gives back every command from its encoding, and the encoding of a decoded command is
the word it was decoded from, with the operands its opcode names. -/
def Obligations.DecodeEncodeAgree : Prop :=
  (∀ i : Instr, decode (encode i) = .ok i) ∧
  (∀ (p : Presented) (i : Instr), decode p = .ok i → (encode i).cw = p.cw ∧
    match i with
    | .cfgw _ _ => (encode i).ops.data = p.ops.data
    | .cfgr _ => True
    | .rxd _ => (encode i).ops.buf = p.ops.buf
    | .txe _ _ _ _ _ _ => (encode i).ops.op0 = p.ops.op0 ∧ (encode i).ops.segs = p.ops.segs
        ∧ (encode i).ops.hr = p.ops.hr ∧ (encode i).ops.tr = p.ops.tr)

/-- 30_encoding.md R73: the legal words are exactly those of the four rows, and each field that must be zero is checked. -/
def Obligations.LegalWordsAreTheTableRows : Prop :=
  ∀ p : Presented,
    ((∃ i, decode p = .ok i) ↔ (p.cw &&& 0xFFFFF00F = 0x00000001 ∨ p.cw &&& 0xFFFFF00F = 0x00000002
        ∨ p.cw = 0x00000003 ∨ p.cw &&& 0xFFFFEFFF = 0x00000004)) ∧
    ((∃ csr data, decode p = .ok (.cfgw csr data)) ↔ p.cw &&& 0xFFFFF00F = 0x00000001) ∧
    ((∃ csr, decode p = .ok (.cfgr csr)) ↔ p.cw &&& 0xFFFFF00F = 0x00000002) ∧
    ((∃ b, decode p = .ok (.rxd b)) ↔ p.cw = 0x00000003) ∧
    ((∃ v mss tci segs hr tr, decode p = .ok (.txe v mss tci segs hr tr)) ↔ p.cw &&& 0xFFFFEFFF = 0x00000004) ∧
    (p.cw.toNat / 2 ^ 13 ≠ 0 → ¬ ∃ i, decode p = .ok i) ∧
    (p.cw.getLsbD 12 = true → p.cw.toNat % 16 ≠ 4 → ¬ ∃ i, decode p = .ok i) ∧
    (p.cw.toNat / 16 % 256 ≠ 0 → p.cw.toNat % 16 = 3 ∨ p.cw.toNat % 16 = 4 → ¬ ∃ i, decode p = .ok i)

/-- 30_encoding.md R78: the decoding procedure on every word, its fields taken as numbers. -/
def Obligations.DecodeFollowsTheProcedure : Prop :=
  ∀ (p : Presented) (rsv v csr opc : Nat),
    p.cw.toNat = rsv * 2 ^ 13 + v * 2 ^ 12 + csr * 2 ^ 4 + opc → v < 2 → csr < 256 → opc < 16 →
    (rsv ≠ 0 → ∃ e, decode p = .error e) ∧
    (rsv = 0 → opc = 1 → v = 0 → decode p = .ok (.cfgw (BitVec.ofNat 8 csr) p.ops.data)) ∧
    (rsv = 0 → opc = 2 → v = 0 → decode p = .ok (.cfgr (BitVec.ofNat 8 csr))) ∧
    (rsv = 0 → opc = 3 → v = 0 → csr = 0 → decode p = .ok (.rxd p.ops.buf)) ∧
    (rsv = 0 → opc = 4 → csr = 0 →
      decode p = .ok (.txe (decide (v = 1)) (p.ops.op0.extractLsb' 0 16) (p.ops.op0.extractLsb' 16 16) p.ops.segs
        p.ops.hr p.ops.tr)) ∧
    (rsv = 0 → ¬ ((opc = 1 ∨ opc = 2) ∧ v = 0) → ¬ (opc = 3 ∧ v = 0 ∧ csr = 0) → ¬ (opc = 4 ∧ csr = 0) →
      ∃ e, decode p = .error e)

/-- Words written out from the encoding tables (30_encoding.md R71, R72, 42_control.md R208) decode to their commands. A
sanity statement. -/
def Obligations.SampleWordsDecode : Prop :=
  decode { cw := 0x00000021, ops := { data := 0x00000200 } } = .ok (.cfgw 0x02 0x00000200) ∧
  decode { cw := 0x00000082 } = .ok (.cfgr 0x08) ∧
  decode { cw := 0x00000003, ops := { buf := [0x5A] } } = .ok (.rxd [0x5A]) ∧
  decode { cw := 0x00001004, ops := { op0 := 0x606405A8, segs := [[1, 2], [3]], hr := 8, tr := 16 } }
    = .ok (.txe true 0x05A8 0x6064 [[1, 2], [3]] 8 16) ∧
  decode { cw := 0x00001001 } = .error .vlanBit

/-- 30_encoding.md R86, R87: what each line of the syntax is encoded as. A register is a name or a number, a buffer a byte list or
a name of the table, the segments one buffer or several, and an absent `hr` or `tr` stands for 8 or 16. -/
def Obligations.SyntaxIsEncodedAsStated : Prop :=
  ∀ (table : List (String × List Byte)) (r : AsmCsr) (i : BitVec 8) (value : Word) (x : AsmBuffer) (b : List Byte)
    (xs : List AsmBuffer) (bs : List (List Byte)) (m t : BitVec 16) (ohr otr : Option Nat) (hr tr : Nat),
    (r = .number i ∨ (r, i) ∈ ([(.name .rxMaxLen, 0x00), (.name .rxCtrl, 0x01), (.name .txMaxPkt, 0x02),
      (.name .txCtrl, 0x03), (.name .rxStatus, 0x08), (.name .txStatus, 0x09)] : List (AsmCsr × BitVec 8))) →
    (x = .bytes b ∨ ∃ label, x = .named label ∧ table.lookup label = some b) →
    List.Forall₂ (fun x b => x = .bytes b ∨ ∃ label, x = .named label ∧ table.lookup label = some b) xs bs →
    (ohr = some hr ∨ ohr = none ∧ hr = 8) → (otr = some tr ∨ otr = none ∧ tr = 16) →
    assemble table (.cfgw r value) = some [{ cw := (i.setWidth 32 <<< 4) ||| 0x1, ops := { data := value } }] ∧
    assemble table (.cfgr r) = some [{ cw := (i.setWidth 32 <<< 4) ||| 0x2 }] ∧
    assemble table (.rxd x) = some [{ cw := 0x3, ops := { buf := b } }] ∧
    assemble table (.txe xs m (some t) ohr otr) =
      some [{ cw := 0x1004, ops := { op0 := (t.setWidth 32 <<< 16) ||| m.setWidth 32, segs := bs, hr := hr, tr := tr } }] ∧
    assemble table (.txe xs m none ohr otr) =
      some [{ cw := 0x0004, ops := { op0 := m.setWidth 32, segs := bs, hr := hr, tr := tr } }]

/-- 30_encoding.md R88: the pseudo-instruction expands to four `CFGW` commands, in this order. -/
def Obligations.CfginitExpandsToFourWrites : Prop :=
  ∀ (table : List (String × List Byte)) (maxlen csum maxpkt sg : Word),
    asmInstrs table (.cfginit maxlen csum maxpkt sg) =
      some [.cfgw 0x00 maxlen, .cfgw 0x01 csum, .cfgw 0x02 maxpkt, .cfgw 0x03 sg] ∧
    assemble table (.cfginit maxlen csum maxpkt sg) =
      some [{ cw := 0x00000001, ops := { data := maxlen } }, { cw := 0x00000011, ops := { data := csum } },
        { cw := 0x00000021, ops := { data := maxpkt } }, { cw := 0x00000031, ops := { data := sg } }]

/-! ## Steps, the command port, reset -/

/-- 60_exceptions.md R248, 20_memory.md R60: a step runs the next presented command whole, and moves the stream on. -/
def Obligations.StepRunsTheDecodedCommand : Prop :=
  ∀ (s : State) (p : Presented) (rest : List HostEvent) (i : Instr),
    s.host.pending = .command p :: rest → decode p = .ok i →
    (∀ t, exec i { s with host := { s.host with pending := rest } } = .next t →
      step s = .next { t with position := t.position + 1 }) ∧
    (∀ r, exec i { s with host := { s.host with pending := rest } } = .refused r → step s = .refused r)

/-- 30_encoding.md R79: an illegal word answers `ILLEGAL_CMD`, takes no operand and changes nothing else of the block. -/
def Obligations.IllegalWordAnswersIllegalCmd : Prop :=
  ∀ (s : State) (p : Presented) (rest : List HostEvent),
    s.host.pending = .command p :: rest → (¬ ∃ i, decode p = .ok i) →
    step s = .next { s with rsp := ⟨1, 0⟩, host := { s.host with pending := rest }, position := s.position + 1 }

/-- 10_state.md R38: the reset value of every piece of the block's state. -/
def Obligations.ResetValues : Prop :=
  State.reset.csr.rxMaxLen = 0 ∧ State.reset.csr.rxCtrl = 1 ∧ State.reset.csr.txMaxPkt = 0 ∧ State.reset.csr.txCtrl = 0 ∧
  State.reset.csr.rxStatus = 0 ∧ State.reset.csr.txStatus = 0 ∧ State.reset.fs = [] ∧ State.reset.wo = [] ∧
  State.reset.rsp = ⟨0, 0⟩

/-- 70_reset_and_hazards.md R270, R271: a reset between two commands gives the block its reset values. That the parameters,
the host's side, the stream index and the counter of free values stay is the model's choice (log 15). -/
def Obligations.HostResetRestoresTheBlock : Prop :=
  ∀ (s : State) (rest : List HostEvent), s.host.pending = .reset :: rest →
    step s = .next { s with csr := State.reset.csr, fs := [], wo := [], rsp := ⟨0, 0⟩, host := { s.host with pending := rest } }

/-- 70_reset_and_hazards.md R272: with the register file at its reset values `RXD` and `TXE` raise `BAD_CONFIG`, `CFGW` and
`CFGR` work, and checksum reporting is on. -/
def Obligations.EnginesNeedConfigurationAfterReset : Prop :=
  ∀ s : State, s.csr = State.reset.csr → layoutValid s.params.layout = true →
    (∀ b : List Byte, b.length < 2 ^ 32 → ∃ t, exec (.rxd b) s = .next t ∧ t.rsp = ⟨4, 0⟩ ∧ t.csr = s.csr ∧ t.fs = s.fs) ∧
    (∀ v mss tci segs hr tr, hr < 2 ^ 32 → tr < 2 ^ 32 →
      ∃ t, exec (.txe v mss tci segs hr tr) s = .next t ∧ t.rsp = ⟨4, 0⟩ ∧ t.csr = s.csr ∧ t.wo = s.wo) ∧
    (∀ d, ∃ t, exec (.cfgw 0x00 d) s = .next t ∧ t.rsp = ⟨0, 0⟩ ∧ cfgMaxLen t = d.toNat % 2 ^ 16 ∧ cfgCsumEn t = true) ∧
    (∃ t, exec (.cfgr 0x01) s = .next t ∧ t.rsp = ⟨0, 1⟩)

/-- 60_exceptions.md R250, third duty; that a step with nothing pending changes nothing is the model's choice (log 2). -/
def Obligations.NothingPendingNothingChanges : Prop :=
  ∀ s : State, s.host.pending = [] → step s = .next s

/-- 60_exceptions.md R253: no command word and no wire content hangs the block; with operands in their range (30_encoding.md
R74) every presented command completes. -/
def Obligations.EveryPresentedCommandCompletes : Prop :=
  ∀ (s : State) (p : Presented) (rest : List HostEvent),
    s.host.pending = .command p :: rest → layoutValid s.params.layout = true →
    p.ops.buf.length < 2 ^ 32 → p.ops.hr < 2 ^ 32 → p.ops.tr < 2 ^ 32 →
    ∃ t, step s = .next t ∧ t.host.pending = rest ∧ t.position = s.position + 1

/-- 60_exceptions.md R255: exactly the operand values without a meaning, and the layouts that cannot be used, are refused. The
order is the model's choice (log 11): an operand out of range is refused before the layout is looked at, both come before the
configuration check, and `CFGW` and `CFGR` run under any layout. -/
def Obligations.RefusalsAreTheListedOperands : Prop :=
  ∀ (i : Instr) (s : State),
    ((∃ r, exec i s = .refused r) ↔
      (∃ b, i = .rxd b ∧ (2 ^ 32 ≤ b.length ∨ layoutValid s.params.layout = false)) ∨
      (∃ v mss tci segs hr tr, i = .txe v mss tci segs hr tr ∧
        (2 ^ 32 ≤ hr ∨ 2 ^ 32 ≤ tr ∨ layoutValid s.params.layout = false))) ∧
    (∀ b, 2 ^ 32 ≤ b.length → exec (.rxd b) s = .refused .transferTooLong) ∧
    (∀ v mss tci segs hr tr, 2 ^ 32 ≤ hr ∨ 2 ^ 32 ≤ tr →
      exec (.txe v mss tci segs hr tr) s = .refused .marginTooLarge) ∧
    (∀ b, b.length < 2 ^ 32 → layoutValid s.params.layout = false → exec (.rxd b) s = .refused .layoutUnusable) ∧
    (∀ v mss tci segs hr tr, hr < 2 ^ 32 → tr < 2 ^ 32 → layoutValid s.params.layout = false →
      exec (.txe v mss tci segs hr tr) s = .refused .layoutUnusable)

/-- 60_exceptions.md R255, 00_scope.md R9: a usable layout is one with the spec's widths, within 64 bits, in which no bit of a
word belongs to two of its fields. -/
def Obligations.UsableLayoutMeansNoSharedBit : Prop :=
  ∀ lay : Layout, layoutValid lay = true ↔
    ((trailerFields lay).map Field.width = [13, 19] ∧
      (descFields lay).map Field.width = [1, 1, 3, 1, 1, 15, 1, 12] ∧
      (headerFields lay).map Field.width = [21, 1, 1, 15, 16] ∧
      ∀ fields ∈ [trailerFields lay, descFields lay, headerFields lay],
        (∀ f ∈ fields, f.lo + f.width ≤ 64) ∧
        fields.Pairwise fun f g => ¬ ∃ k, (f.lo ≤ k ∧ k < f.lo + f.width) ∧ (g.lo ≤ k ∧ k < g.lo + g.width))

/-- 60_exceptions.md R239, R230: a command that ends with another code than `OK` has made no output, and changes of the block,
beside `RSP`, at most the status register its class names. -/
def Obligations.ErrorsMakeNoPartialOutput : Prop :=
  ∀ (s t : State) (p : Presented) (rest : List HostEvent),
    s.host.pending = .command p :: rest → step s = .next t → t.rsp.code ≠ 0 →
    t.fs = s.fs ∧ t.wo = s.wo ∧ t.params = s.params ∧ t.rsp.data = 0 ∧ t.rsp.code.toNat ≤ 8 ∧
    (t.rsp.code.toNat ≤ 5 → t.csr = s.csr) ∧
    (t.rsp.code = 6 → t.csr = { s.csr with rxStatus := t.csr.rxStatus }) ∧
    (t.rsp.code = 7 ∨ t.rsp.code = 8 → t.csr = { s.csr with txStatus := t.csr.txStatus })

/-- 10_state.md R22, R31, R32, 60_exceptions.md R250: a step that is no reset only appends to `FS` and `WO`; a command moves
the index by one; no step changes the parameters. -/
def Obligations.StreamsOnlyGrow : Prop :=
  ∀ s t : State, step s = .next t → (∀ rest, s.host.pending ≠ .reset :: rest) →
    (∃ frames, t.fs = s.fs ++ frames) ∧ (∃ buffers, t.wo = s.wo ++ buffers ∧ buffers.length ≤ 1) ∧
    t.position = s.position + (s.host.pending.length - t.host.pending.length) ∧ t.host.pending = s.host.pending.tail ∧
    t.params = s.params

/-- The invariant holds after reset. -/
def Obligations.GoodAfterReset : Prop := State.reset.Good

/-- The invariant, over every state and every step: reserved bits stay 0 (10_state.md R23), the status registers hold only
records the rules write (R28, R29; reason 3 never, 40_rx_reassembly.md R115), the response is one of 30_encoding.md R76 and
R77, every delivered frame and every encoded buffer has a length the formats allow (41_tx_framing.md R173). -/
def Obligations.EveryStepKeepsGood : Prop :=
  ∀ s t : State, s.Good → step s = .next t → t.Good

/-! ## Control commands -/

/-- 42_control.md R201: a write to each of the four read/write registers. -/
def Obligations.CfgwWritesUnderTheMask : Prop :=
  ∀ (s : State) (data : Word),
    exec (.cfgw 0x00 data) s =
      .next { s with csr := { s.csr with rxMaxLen := data &&& 0x0000FFFF }, rsp := ⟨0, 0⟩ } ∧
    exec (.cfgw 0x01 data) s =
      .next { s with csr := { s.csr with rxCtrl := data &&& 0x00000001 }, rsp := ⟨0, 0⟩ } ∧
    exec (.cfgw 0x02 data) s =
      .next { s with csr := { s.csr with txMaxPkt := data &&& 0x0000FFFF }, rsp := ⟨0, 0⟩ } ∧
    exec (.cfgw 0x03 data) s =
      .next { s with csr := { s.csr with txCtrl := data &&& 0x00000001 }, rsp := ⟨0, 0⟩ }

/-- 20_memory.md R61, 70_reset_and_hazards.md R275: the value just written is the one the next command's snapshot takes. -/
def Obligations.CfgwIsSeenByTheNextSnapshot : Prop :=
  ∀ (s t : State) (csr : BitVec 8) (data : Word), exec (.cfgw csr data) s = .next t →
    takeSnapshot t.csr =
      { maxLen := if csr = 0x00 then data.toNat % 2 ^ 16 else cfgMaxLen s
        csumEn := if csr = 0x01 then data.getLsbD 0 else cfgCsumEn s
        maxPkt := if csr = 0x02 then data.toNat % 2 ^ 16 else cfgMaxPkt s
        sgOk := if csr = 0x03 then data.getLsbD 0 else cfgSgOk s }

/-- 42_control.md R202: a write to a status register raises `RO_WRITE`. -/
def Obligations.CfgwOfAStatusRegisterRaisesRoWrite : Prop :=
  ∀ (s : State) (csr : BitVec 8) (data : Word), csr = 0x08 ∨ csr = 0x09 →
    exec (.cfgw csr data) s = .next { s with rsp := ⟨3, 0⟩ }

/-- 42_control.md R203, R206: a write or a read of an undefined index raises `BAD_CSR` and changes no state. -/
def Obligations.UndefinedIndexRaisesBadCsr : Prop :=
  ∀ (s : State) (csr : BitVec 8) (data : Word), csr ∉ [0x00, 0x01, 0x02, 0x03, 0x08, 0x09] →
    exec (.cfgw csr data) s = .next { s with rsp := ⟨2, 0⟩ } ∧ exec (.cfgr csr) s = .next { s with rsp := ⟨2, 0⟩ }

/-- 42_control.md R205: a read returns the register, its reserved bits as 0, and has no side effect. -/
def Obligations.CfgrReturnsTheRegister : Prop :=
  ∀ s : State,
    exec (.cfgr 0x00) s = .next { s with rsp := ⟨0, s.csr.rxMaxLen &&& 0x0000FFFF⟩ } ∧
    exec (.cfgr 0x01) s = .next { s with rsp := ⟨0, s.csr.rxCtrl &&& 0x00000001⟩ } ∧
    exec (.cfgr 0x02) s = .next { s with rsp := ⟨0, s.csr.txMaxPkt &&& 0x0000FFFF⟩ } ∧
    exec (.cfgr 0x03) s = .next { s with rsp := ⟨0, s.csr.txCtrl &&& 0x00000001⟩ } ∧
    exec (.cfgr 0x08) s = .next { s with rsp := ⟨0, s.csr.rxStatus⟩ } ∧
    exec (.cfgr 0x09) s = .next { s with rsp := ⟨0, s.csr.txStatus⟩ }

/-- 42_control.md R201, R205: a register written and then read gives the value under its mask, and a read of every other
index gives what it gave before the write. -/
def Obligations.ReadAfterWriteOfARegister : Prop :=
  ∀ (s t u u0 : State) (w r : BitVec 8) (data : Word),
    exec (.cfgw w data) s = .next t → t.rsp.code = 0 → exec (.cfgr r) t = .next u → exec (.cfgr r) s = .next u0 →
    (r ≠ w → u.rsp = u0.rsp) ∧
    (r = w → u.rsp = ⟨0, data &&& (if w = 0x00 ∨ w = 0x02 then 0x0000FFFF else 0x00000001)⟩)

/-- 42_control.md R200, R204, R207, 20_memory.md R57: what the control commands leave alone: `CFGW` changes at most one of the
four configuration registers and `RSP`, `CFGR` only `RSP`. -/
def Obligations.ControlCommandsFrame : Prop :=
  ∀ (s t : State) (csr : BitVec 8) (data : Word),
    (exec (.cfgw csr data) s = .next t →
      t = { s with csr := t.csr, rsp := t.rsp } ∧ t.csr.rxStatus = s.csr.rxStatus ∧ t.csr.txStatus = s.csr.txStatus ∧
      (csr ≠ 0x00 → t.csr.rxMaxLen = s.csr.rxMaxLen) ∧ (csr ≠ 0x01 → t.csr.rxCtrl = s.csr.rxCtrl) ∧
      (csr ≠ 0x02 → t.csr.txMaxPkt = s.csr.txMaxPkt) ∧ (csr ≠ 0x03 → t.csr.txCtrl = s.csr.txCtrl)) ∧
    (exec (.cfgr csr) s = .next t → t = { s with rsp := t.rsp })

/-! ## RXD -/

/-- 40_rx_reassembly.md R112: the two entry checks, in order. -/
def Obligations.RxdEntryChecks : Prop :=
  ∀ (s : State) (b : List Byte), layoutValid s.params.layout = true → b.length < 2 ^ 32 →
    (cfgMaxLen s = 0 →
      exec (.rxd b) s = .next { s with rsp := ⟨4, 0⟩, host := { s.host with rxBuf := b } }) ∧
    (cfgMaxLen s ≠ 0 → b.length < 8 →
      exec (.rxd b) s = .next { s with csr := { s.csr with rxStatus := 0x00000031 }, rsp := ⟨6, 0⟩,
                                       host := { s.host with rxBuf := b } })

/-- 40_rx_reassembly.md R114, R116: the offset check and, after it, the count check. -/
def Obligations.RxdOffsetAndCountChecks : Prop :=
  ∀ (s : State) (b : List Byte) (pc off : Nat), layoutValid s.params.layout = true → b.length < 2 ^ 32 →
    cfgMaxLen s ≠ 0 → 8 ≤ b.length →
    pc = packetCount s.params.layout (le64 b (b.length - 8)) →
    off = trailerOffset s.params.layout (le64 b (b.length - 8)) →
    (b.length < 8 * (pc + 1) ∨ off ≠ b.length - 8 * (pc + 1) →
      exec (.rxd b) s = .next { s with csr := { s.csr with rxStatus := 0x00000032 }, rsp := ⟨6, 0⟩,
                                       host := { s.host with rxBuf := b } }) ∧
    (8 * (pc + 1) ≤ b.length → off = b.length - 8 * (pc + 1) → pc = 0 →
      exec (.rxd b) s = .next { s with csr := { s.csr with rxStatus := 0x00000034 }, rsp := ⟨6, 0⟩,
                                       host := { s.host with rxBuf := b } })

/-- 40_rx_reassembly.md R119 to R121: the overrun check at any descriptor and, after it, the sum check. -/
def Obligations.RxdOverrunAndSumChecks : Prop :=
  ∀ (s : State) (b : List Byte) (pc off : Nat) (ds : List Desc), layoutValid s.params.layout = true →
    b.length < 2 ^ 32 → cfgMaxLen s ≠ 0 → 8 ≤ b.length →
    pc = packetCount s.params.layout (le64 b (b.length - 8)) →
    off = trailerOffset s.params.layout (le64 b (b.length - 8)) →
    b.length = off + 8 * (pc + 1) → 0 < pc →
    ds = (List.range pc).map (fun i => decodeDesc s.params.layout (le64 b (off + 8 * i))) →
    ((∃ i < pc, off < consumedUpTo ds (i + 1)) →
      exec (.rxd b) s = .next { s with csr := { s.csr with rxStatus := 0x00000035 }, rsp := ⟨6, 0⟩,
                                       host := { s.host with rxBuf := b } }) ∧
    ((∀ i < pc, consumedUpTo ds (i + 1) ≤ off) → consumedUpTo ds pc ≠ off →
      exec (.rxd b) s = .next { s with csr := { s.csr with rxStatus := 0x00000036 }, rsp := ⟨6, 0⟩,
                                       host := { s.host with rxBuf := b } })

/-- 40_rx_reassembly.md R123 to R131: a transfer that passes every check delivers exactly the frames of its accepted
descriptors, in ascending index, and reports how many were delivered and skipped. -/
def Obligations.RxdDeliversTheAcceptedFrames : Prop :=
  ∀ (s : State) (b : List Byte) (pc : Nat) (frames : List Frame), layoutValid s.params.layout = true →
    b.length < 2 ^ 32 → cfgMaxLen s ≠ 0 → transferConsistent s.params.layout b →
    pc = packetCount s.params.layout (trailerWord b) →
    frames = (List.range pc).filterMap (frameAt s b (transferDescs s.params.layout b)) →
    exec (.rxd b) s =
      .next { s with
        fs := s.fs ++ frames
        csr := { s.csr with
          rxStatus := BitVec.ofNat 32 (2 ^ 5 + frames.length * 2 ^ 6 + (pc - frames.length) * 2 ^ 19) }
        rsp := ⟨0, BitVec.ofNat 32 frames.length⟩
        host := { s.host with rxBuf := b } } ∧
    frames.length ≤ pc ∧ pc ≤ 8191

/-- 40_rx_reassembly.md R111, R133 (P-sum): an `RXD` ends with `OK` exactly when its transfer is consistent, and otherwise
delivers nothing. -/
def Obligations.RxdIsAllOrNothing : Prop :=
  ∀ (s t : State) (b : List Byte), cfgMaxLen s ≠ 0 → exec (.rxd b) s = .next t →
    (t.rsp.code = 0 ↔ transferConsistent s.params.layout b) ∧
    (¬ transferConsistent s.params.layout b → t.fs = s.fs ∧ t.rsp = ⟨6, 0⟩ ∧ rxDiscardBit t.csr.rxStatus = true)

/-- 40_rx_reassembly.md R133: P-sum, P-drop and P-csum, of every frame that an `RXD` appends. -/
def Obligations.RxdFramePropertiesOfTheSource : Prop :=
  ∀ (s t : State) (b : List Byte), exec (.rxd b) s = .next t →
    ∃ frames, t.fs = s.fs ++ frames ∧
      (frames ≠ [] → (((transferDescs s.params.layout b).map fun d => roundUp8 d.len).sum
        = trailerOffset s.params.layout (trailerWord b))) ∧
      ∀ f ∈ frames, ∃ i, ∃ h : i < (transferDescs s.params.layout b).length,
        frameAt s b (transferDescs s.params.layout b) i = some f ∧
        (s.params.skipCsumErr = true →
          ((transferDescs s.params.layout b)[i]).drop = false ∧ ((transferDescs s.params.layout b)[i]).l3err = false ∧
          ((transferDescs s.params.layout b)[i]).l4err = false) ∧
        (cfgCsumEn s = true →
          (f.csum = .verifiedGood ↔
            (((transferDescs s.params.layout b)[i]).l4t = .tcp ∨ ((transferDescs s.params.layout b)[i]).l4t = .udp) ∧
            ((transferDescs s.params.layout b)[i]).l3err = false ∧ ((transferDescs s.params.layout b)[i]).l4err = false))

/-- 20_memory.md R58, 00_scope.md R15, 40_rx_reassembly.md R117, R119, R125: every read lies within the transfer. The trailer word
needs 8 bytes (R112); the descriptors, the offset check only (R114), whatever becomes of the transfer; the frames, that check
and no overrun (R120), also where the sum check fails. A slot is the least multiple of 8 that holds its length. -/
def Obligations.RxdReadsStayInBounds : Prop :=
  (∀ x, roundUp8 x % 8 = 0 ∧ x ≤ roundUp8 x ∧ roundUp8 x < x + 8) ∧
  ∀ (s : State) (b : List Byte) (pc off : Nat) (ds : List Desc), 8 ≤ b.length →
    pc = packetCount s.params.layout (trailerWord b) → off = trailerOffset s.params.layout (trailerWord b) →
    ds = transferDescs s.params.layout b →
    (memRead b (b.length - 8) 8).length = 8 ∧
    (b.length = off + 8 * (pc + 1) →
      ds.length = pc ∧
      ∀ i < pc, off ≤ off + 8 * i ∧ off + 8 * i + 8 ≤ b.length - 8 ∧ (memRead b (off + 8 * i) 8).length = 8 ∧
        ds[i]? = some (decodeDesc s.params.layout (BitVec.ofNat 64 (leValue (memRead b (off + 8 * i) 8))))) ∧
    (b.length = off + 8 * (pc + 1) → (∀ i < pc, consumedUpTo ds (i + 1) ≤ off) →
      ∀ i, ∀ h : i < ds.length,
        consumedUpTo ds (i + 1) = consumedUpTo ds i + roundUp8 ds[i].len ∧
        consumedUpTo ds i + ds[i].len ≤ off ∧ off < b.length ∧
        ∀ f, frameAt s b ds i = some f → f.data.length = ds[i].len - s.params.rxHwPad)

/-- 40_rx_reassembly.md R115: the range check never fails, so no `RXD` records reason 3. -/
def Obligations.OffsetRangeIsUnreachable : Prop :=
  ∀ (s t : State) (b : List Byte), exec (.rxd b) s = .next t → t.rsp.code ≠ 4 → rxReason t.csr.rxStatus ≠ 3

/-- 40_rx_reassembly.md R132, R121: transfers longer than 589823 bytes, and transfers whose length is no multiple of 8, are
always discarded, and the reason of each. Of the second kind, a transfer with a descriptor has one of the three reasons that
R132 lists. That one shorter than 8 bytes has `SHORT`, and one without a descriptor has `ZERO_COUNT` where its offset passes
the offset check and `OFFSET_MISMATCH` where it does not, is how the model reads the order of the checks in R131 (log 21). -/
def Obligations.OddAndOverlongTransfersAreDiscarded : Prop :=
  ∀ (s : State) (b : List Byte), layoutValid s.params.layout = true → b.length < 2 ^ 32 → cfgMaxLen s ≠ 0 →
    (589823 < b.length →
      exec (.rxd b) s = .next { s with csr := { s.csr with rxStatus := 0x00000032 }, rsp := ⟨6, 0⟩,
                                       host := { s.host with rxBuf := b } }) ∧
    (b.length % 8 ≠ 0 → ∃ t, exec (.rxd b) s = .next t ∧ t.rsp = ⟨6, 0⟩ ∧ t.fs = s.fs ∧
      (b.length < 8 → rxReason t.csr.rxStatus = 1) ∧
      (8 ≤ b.length → packetCount s.params.layout (trailerWord b) ≠ 0 → rxReason t.csr.rxStatus ∈ [2, 5, 6]) ∧
      (8 ≤ b.length → packetCount s.params.layout (trailerWord b) = 0 →
        rxReason t.csr.rxStatus = if trailerOffset s.params.layout (trailerWord b) = b.length - 8 then 4 else 2))

/-- 30_encoding.md R84, first point: the unused bits of the trailer word and of the descriptors change no outcome. Of two
transfers whose words differ in unused bits only, each leaves the same state, but for the host's own buffer. -/
def Obligations.UnusedWireBitsChangeNothing : Prop :=
  ∀ (s : State) (data : List Byte) (ds ds' : List DWord) (tw tw' : DWord),
    layoutValid s.params.layout = true → data.length + 8 * (ds.length + 1) < 2 ^ 32 →
    ds.length = ds'.length →
    (∀ (i : Nat) (w w' : DWord), ds[i]? = some w → ds'[i]? = some w' → ∀ f ∈ descFields s.params.layout, getField f w = getField f w') →
    (∀ f ∈ trailerFields s.params.layout, getField f tw = getField f tw') →
    packetCount s.params.layout tw = ds.length →
    ∃ t, exec (.rxd (data ++ (ds.map leBytes64).flatten ++ leBytes64 tw)) s = .next t ∧
      exec (.rxd (data ++ (ds'.map leBytes64).flatten ++ leBytes64 tw')) s =
        .next { t with host := { t.host with rxBuf := data ++ (ds'.map leBytes64).flatten ++ leBytes64 tw' } }

/-- 10_state.md R23, 20_memory.md R68, R69: what `RXD` leaves alone. It appends to `FS`, and writes `RX_STATUS` and `RSP`; the
transfer buffer holds what the host presented. -/
def Obligations.RxdFrame : Prop :=
  ∀ (s t : State) (b : List Byte), exec (.rxd b) s = .next t →
    t = { s with fs := t.fs, csr := { s.csr with rxStatus := t.csr.rxStatus }, rsp := t.rsp,
                 host := { s.host with rxBuf := b } } ∧
    ∃ frames, t.fs = s.fs ++ frames

/-- 30_encoding.md R80, R81, R83: under the default layout the decoder reads these bits (general knowledge, not in source; log
4). -/
def Obligations.DefaultLayoutBitPositions : Prop :=
  ∀ w : DWord,
    packetCount defaultLayout w = (w.extractLsb' 0 13).toNat ∧
    trailerOffset defaultLayout w = (w.extractLsb' 13 19).toNat ∧
    decodeDesc defaultLayout w =
      { len := (w.extractLsb' 16 15).toNat
        drop := w.getLsbD 31
        rxok := w.getLsbD 11
        l3err := w.getLsbD 1
        l4err := w.getLsbD 0
        l4t := if w.extractLsb' 2 3 = 1 then .udp else if w.extractLsb' 2 3 = 4 then .tcp else .other
        vlan := w.getLsbD 10
        vid := w.extractLsb' 32 12 }

/-! ## TXE -/

/-- 41_tx_framing.md R161: with `MAXPKT` of 8 or less a `TXE` raises `BAD_CONFIG`. -/
def Obligations.TxeConfigurationCheck : Prop :=
  ∀ (s : State) v mss tci segs hr tr, layoutValid s.params.layout = true → hr < 2 ^ 32 → tr < 2 ^ 32 → cfgMaxPkt s ≤ 8 →
    ∃ t, exec (.txe v mss tci segs hr tr) s = .next t ∧
      t = { s with rsp := ⟨4, 0⟩, host := { s.host with txSegs := t.host.txSegs }, free := t.free }

/-- 41_tx_framing.md R162: after the configuration check, a frame or a segment size too large for its header field raises
`BAD_OPERAND`. -/
def Obligations.TxeOperandCheck : Prop :=
  ∀ (s : State) v (mss : BitVec 16) tci segs hr tr, layoutValid s.params.layout = true → hr < 2 ^ 32 → tr < 2 ^ 32 →
    8 < cfgMaxPkt s → 2 ^ 21 - 1 < segs.flatten.length ∨ 2 ^ 15 - 1 < mss.toNat →
    ∃ t, exec (.txe v mss tci segs hr tr) s = .next t ∧
      t = { s with rsp := ⟨5, 0⟩, host := { s.host with txSegs := t.host.txSegs }, free := t.free }

/-- 41_tx_framing.md R165: the range of the padding, and the guard: the padding is less than 8 unless header, frame and that
padding fill whole packets, and then it is 8 more. -/
def Obligations.PaddingRangeAndGuard : Prop :=
  ∀ n m : Nat, 8 < m →
    paddingFor n m ≤ 15 ∧ (8 + n + paddingFor n m) % 8 = 0 ∧
    (guardFires n m = true ↔ ∃ p < 8, (8 + n + p) % 8 = 0 ∧ (8 + n + p) % m = 0) ∧
    (∀ p < 8, (8 + n + p) % 8 = 0 → paddingFor n m = if (8 + n + p) % m = 0 then p + 8 else p) ∧
    (guardFires n m = true ↔ 8 ≤ paddingFor n m)

/-- 41_tx_framing.md R163 to R165, R168 to R170: a frame whose draws, if any, are answered `ok` goes out as its header, its
bytes and zeros. Under every usable layout the header's fields hold the length, the segment size, the tag and the drop-padding
flag, and every bit outside a field is 0 (30_encoding.md R84). That the draws are the first of `host.answers`, and leave the rest
of that list, is the model's choice (log 5); that a frame with enough margins draws `LIN` at all is its reading (log 22). -/
def Obligations.TxeEncodesTheFrame : Prop :=
  ∀ (s : State) (v : Bool) (mss tci : BitVec 16) (segs : List (List Byte)) (hr tr n r pad0 pad drop : Nat)
    (rest : List Answer),
    layoutValid s.params.layout = true → hr < 2 ^ 32 → tr < 2 ^ 32 → 8 < cfgMaxPkt s →
    n = segs.flatten.length → n < 2 ^ 21 → mss.toNat < 2 ^ 15 →
    r = (n + 8) % 8 → pad0 = (if r ≠ 0 then 8 - r else 0) →
    pad = (if (n + 8 + pad0) % cfgMaxPkt s = 0 then pad0 + 8 else pad0) →
    drop = (if (n + 8 + pad0) % cfgMaxPkt s = 0 then 1 else 0) →
    s.host.answers = List.replicate (drawsNeeded segs (cfgSgOk s) hr tr pad) Answer.ok ++ rest →
    ∃ (h : DWord) (t : State),
      getField s.params.layout.txhLen h = n ∧
      getField s.params.layout.txhMss h = mss.toNat ∧
      getField s.params.layout.txhVlan h = (if v then 1 else 0) ∧
      getField s.params.layout.txhTci h = (if v then tci.toNat else 0) ∧
      getField s.params.layout.txhDroppad h = drop ∧
      (∀ k, (∀ f ∈ headerFields s.params.layout, ¬ (f.lo ≤ k ∧ k < f.lo + f.width)) → h.getLsbD k = false) ∧
      exec (.txe v mss tci segs hr tr) s = .next t ∧
      t = { s with
        wo := s.wo ++ [leBytes64 h ++ segs.flatten ++ List.replicate pad 0]
        csr := { s.csr with txStatus := BitVec.ofNat 32 (1 + drop * 2 ^ 4 + pad * 2 ^ 5 + (8 + n + pad) * 2 ^ 9) }
        rsp := ⟨0, BitVec.ofNat 32 (8 + n + pad)⟩
        host := { s.host with answers := rest, txSegs := t.host.txSegs }
        free := t.free }

/-- 30_encoding.md R82 under the default layout: the header as one number. The bit positions are general knowledge, not in
source (log 4). -/
def Obligations.TxHeaderUnderTheDefaultLayout : Prop :=
  ∀ (v : Bool) (mss tci : BitVec 16) (n m : Nat), n < 2 ^ 21 → mss.toNat < 2 ^ 15 →
    (txHeader defaultLayout v mss tci n m).toNat =
      n + (if guardFires n m then 2 ^ 28 else 0) + (if v then 2 ^ 29 + tci.toNat * 2 ^ 48 else 0) + mss.toNat * 2 ^ 32

/-- 41_tx_framing.md R166: a failed linearization drops the frame. The draw is the next of the host's answers (log 5). That this
holds also with enough leading and trailing space, where a corner case of R172 says that a `TXE` cannot fail after its checks,
is the model's reading (log 22). -/
def Obligations.TxeLinearizationFailure : Prop :=
  ∀ (s : State) v (mss : BitVec 16) tci segs hr tr (rest : List Answer), layoutValid s.params.layout = true →
    hr < 2 ^ 32 → tr < 2 ^ 32 → 8 < cfgMaxPkt s → segs.flatten.length < 2 ^ 21 → mss.toNat < 2 ^ 15 →
    1 < segs.length → cfgSgOk s = false → s.host.answers = .fail :: rest →
    ∃ t, exec (.txe v mss tci segs hr tr) s = .next t ∧
      t = { s with
        csr := { s.csr with txStatus := 0x00000007 }
        rsp := ⟨7, 0⟩
        host := { s.host with answers := rest, txSegs := t.host.txSegs }
        free := t.free }

/-- 41_tx_framing.md R167, 60_exceptions.md R236: a failed copy drops the frame; the draw is made after a successful
linearization, or at once where none is needed. The draws are the next of the host's answers (log 5). -/
def Obligations.TxeAllocationFailure : Prop :=
  ∀ (s : State) v (mss : BitVec 16) tci segs hr tr (rest : List Answer), layoutValid s.params.layout = true →
    hr < 2 ^ 32 → tr < 2 ^ 32 → 8 < cfgMaxPkt s → segs.flatten.length < 2 ^ 21 → mss.toNat < 2 ^ 15 →
    hr < 8 ∨ tr < paddingFor segs.flatten.length (cfgMaxPkt s) →
    s.host.answers = (if 1 < segs.length ∧ cfgSgOk s = false then [.ok] else []) ++ .fail :: rest →
    ∃ t, exec (.txe v mss tci segs hr tr) s = .next t ∧
      t = { s with
        csr := { s.csr with txStatus := 0x0000000B }
        rsp := ⟨8, 0⟩
        host := { s.host with answers := rest, txSegs := t.host.txSegs }
        free := t.free }

/-- 60_exceptions.md R234, R236, R252, 41_tx_framing.md R166 to R170: whatever the host answers, and whether or not State
holds the answers, a `TXE` past its checks either sends the one buffer its operands determine, or fails for a resource it
had to ask for. That the failure {7, 0} is possible also with enough margins
(R166 against a corner case of R172) is the model's reading (log 22). -/
def Obligations.TxeSendsOrFailsForAResource : Prop :=
  ∀ (s : State) (v : Bool) (mss tci : BitVec 16) (segs : List (List Byte)) (hr tr n pad : Nat),
    layoutValid s.params.layout = true → hr < 2 ^ 32 → tr < 2 ^ 32 → 8 < cfgMaxPkt s →
    n = segs.flatten.length → n < 2 ^ 21 → mss.toNat < 2 ^ 15 → pad = paddingFor n (cfgMaxPkt s) →
    ∃ t, exec (.txe v mss tci segs hr tr) s = .next t ∧
      ((t.rsp = ⟨0, BitVec.ofNat 32 (8 + n + pad)⟩ ∧
          t.wo = s.wo ++ [leBytes64 (txHeader s.params.layout v mss tci n (cfgMaxPkt s)) ++ segs.flatten
            ++ List.replicate pad 0]) ∨
        (t.rsp = ⟨7, 0⟩ ∧ t.wo = s.wo ∧ t.csr.txStatus = 0x7 ∧ 1 < segs.length ∧ cfgSgOk s = false) ∨
        (t.rsp = ⟨8, 0⟩ ∧ t.wo = s.wo ∧ t.csr.txStatus = 0xB ∧ (hr < 8 ∨ tr < pad)))

/-- 41_tx_framing.md R166, R167: the bytes sent depend neither on how the frame is cut into segments, nor on the margins, nor
on the host's answers. -/
def Obligations.TxeOutputDoesNotDependOnResources : Prop :=
  ∀ (s s' t t' : State) v mss tci segs segs' hr hr' tr tr',
    s'.csr = s.csr → s'.params = s.params → segs'.flatten = segs.flatten →
    exec (.txe v mss tci segs hr tr) s = .next t → exec (.txe v mss tci segs' hr' tr') s' = .next t' →
    t.rsp.code = 0 → t'.rsp.code = 0 →
    ∃ x, t.wo = s.wo ++ [x] ∧ t'.wo = s'.wo ++ [x] ∧ t'.csr.txStatus = t.csr.txStatus

/-- 41_tx_framing.md R173, P-zlp and P-align: what every successful `TXE` appends is a multiple of 8 bytes and never a
multiple of the packet size. -/
def Obligations.TxeNeverNeedsAZeroLengthPacket : Prop :=
  ∀ (s t : State) v mss tci segs hr tr, exec (.txe v mss tci segs hr tr) s = .next t → t.rsp.code = 0 →
    ∃ x, t.wo = s.wo ++ [x] ∧ x.length % cfgMaxPkt s ≠ 0 ∧ x.length % 8 = 0 ∧ x.length ≤ 8 + (2 ^ 21 - 1) + 15 ∧
      t.rsp.data.toNat = x.length ∧ txEncLen t.csr.txStatus = x.length

/-- 10_state.md R23, 20_memory.md R68, 41_tx_framing.md R160: what `TXE` leaves alone. It appends at most one buffer to `WO`,
writes `TX_STATUS` and `RSP`, and takes at most two of the host's answers. That the input segments keep their lengths is the
model's choice (log 6). -/
def Obligations.TxeFrame : Prop :=
  ∀ (s t : State) v mss tci segs hr tr, exec (.txe v mss tci segs hr tr) s = .next t →
    t = { s with wo := t.wo, csr := { s.csr with txStatus := t.csr.txStatus }, rsp := t.rsp,
                 host := { s.host with answers := t.host.answers, txSegs := t.host.txSegs }, free := t.free } ∧
    (∃ buffers, t.wo = s.wo ++ buffers ∧ buffers.length ≤ 1) ∧
    (∃ k ≤ 2, t.host.answers = s.host.answers.drop k) ∧
    t.host.txSegs.map List.length = segs.map List.length

/-! ## Both engines -/

/-- 20_memory.md R68: the order of an `RXD` and a `TXE` changes neither engine's outputs nor its response, only which response
comes first. -/
def Obligations.EnginesAreIndependent : Prop :=
  ∀ (s r x rx xr : State) (b : List Byte) v mss tci segs hr tr,
    exec (.rxd b) s = .next r → exec (.txe v mss tci segs hr tr) r = .next rx →
    exec (.txe v mss tci segs hr tr) s = .next x → exec (.rxd b) x = .next xr →
    rx = { xr with rsp := rx.rsp } ∧ xr.rsp = r.rsp ∧ rx.rsp = x.rsp

/-- 41_tx_framing.md R173, P-roundtrip: the buffer of a tagged `TXE` gives back its own length, frame and tag; the transfer
constructed to match delivers exactly the frame, with the 12-bit id of the tag. -/
def Obligations.RoundTripPreservesTheFrame : Prop :=
  ∀ (s t : State) (mss tci : BitVec 16) (segs : List (List Byte)) (hr tr n : Nat) (x : List Byte) (d tw : DWord),
    exec (.txe true mss tci segs hr tr) s = .next t → t.rsp.code = 0 → t.wo = s.wo ++ [x] →
    n = getField s.params.layout.txhLen (le64 x 0) →
    decodeDesc s.params.layout d =
      { len := n + s.params.rxHwPad, drop := false, rxok := true, l3err := false, l4err := false,
        l4t := (decodeDesc s.params.layout d).l4t, vlan := true,
        vid := BitVec.ofNat 12 (getField s.params.layout.txhTci (le64 x 0)) } →
    packetCount s.params.layout tw = 1 →
    trailerOffset s.params.layout tw = roundUp8 (n + s.params.rxHwPad) →
    cfgMaxLen t ≠ 0 → n ≤ cfgMaxLen t →
    ∃ u csum,
      exec (.rxd (zeros s.params.rxHwPad ++ slice x 8 (8 + n)
        ++ zeros (roundUp8 (n + s.params.rxHwPad) - (n + s.params.rxHwPad)) ++ leBytes64 d ++ leBytes64 tw)) t = .next u ∧
      u.rsp = ⟨0, 1⟩ ∧ u.fs = t.fs ++ [⟨segs.flatten, csum, some (tci.extractLsb' 0 12)⟩]

/-! ## Wire words -/

/-- 20_memory.md R53, 00_scope.md R14: every wire word is little-endian, byte `k` holding bits `8k + 7` down to `8k`: the trailer
word and each descriptor as they are read, the header as it is written. -/
def Obligations.WireWordsAreLittleEndian : Prop :=
  ∀ (lay : Layout) (b f : List Byte) (h : DWord) (pad : Nat),
    (∀ a, a + 8 ≤ b.length → (le64 b a).toNat = bytesAsNumber b a) ∧
    (8 ≤ b.length → (trailerWord b).toNat = bytesAsNumber b (b.length - 8)) ∧
    (∀ off pc i, i < pc → off + 8 * i + 8 ≤ b.length →
      (descriptors lay b off pc)[i]? = some (decodeDesc lay (BitVec.ofNat 64 (bytesAsNumber b (off + 8 * i))))) ∧
    (leBytes64 h).length = 8 ∧
    (∀ k < 8, (leBytes64 h)[k]? = some (h.extractLsb' (8 * k) 8)) ∧
    (∀ k < 8, (wireBuffer h f pad)[k]? = some (h.extractLsb' (8 * k) 8))
end

