-- ==== Sys2Proof/Laws/Bytes.lean ====
section
/-! SUPPORT. Byte sequences, little-endian words and rounding to 8. -/

namespace Sys2Proof.Machine

theorem roundUp8_ge (x : Nat) : x ≤ roundUp8 x := by unfold roundUp8; omega

theorem roundUp8_lt (x : Nat) : roundUp8 x < x + 8 := by unfold roundUp8; omega

theorem roundUp8_mod (x : Nat) : roundUp8 x % 8 = 0 := by unfold roundUp8; omega

/-- A number at least `x`, less than 8 above it, and a multiple of 8 is `roundUp8 x` (00_scope.md R15). -/
theorem roundUp8_eq (x y : Nat) (h1 : x ≤ y) (h2 : y < x + 8) (h3 : y % 8 = 0) : y = roundUp8 x := by
  unfold roundUp8; omega

theorem slice_length (b : List Byte) (lo hi : Nat) (h : hi ≤ b.length) : (slice b lo hi).length = hi - lo := by
  simp only [slice, List.length_take, List.length_drop]; omega

/-- A slice that lies within the first part of a buffer (00_scope.md R13). -/
theorem slice_append_left (a b : List Byte) (lo hi : Nat) (h : hi ≤ a.length) :
    slice (a ++ b) lo hi = slice a lo hi := by
  simp only [slice]
  by_cases hl : lo ≤ a.length
  · rw [List.drop_append_of_le_length hl, List.take_append_of_le_length (by simp; omega)]
  · have h0 : hi - lo = 0 := by omega
    simp [h0]

/-- A slice that lies within the second part of a buffer (00_scope.md R13). -/
theorem slice_append_right (a b : List Byte) (lo hi : Nat) (h : a.length ≤ lo) :
    slice (a ++ b) lo hi = slice b (lo - a.length) (hi - a.length) := by
  have h2 : hi - lo = (hi - a.length) - (lo - a.length) := by omega
  simp only [slice, List.drop_append, List.drop_of_length_le h, List.nil_append, h2]

@[simp] theorem leBytes64_length (v : DWord) : (leBytes64 v).length = 8 := by simp [leBytes64]

@[simp] theorem zeros_length (n : Nat) : (zeros n).length = n := by simp [zeros]

/-- The value of a byte sequence as a sum over its places, byte `k` weighing `2^(8k)` (00_scope.md R14). -/
theorem leValue_eq_sum (l : List Byte) :
    leValue l = ((List.range l.length).map fun k => (l.getD k 0).toNat * 2 ^ (8 * k)).sum := by
  induction l with
  | nil => rfl
  | cons x xs ih =>
    have h : ∀ k, 2 ^ (8 * (k + 1)) = 256 * 2 ^ (8 * k) := fun k => by rw [Nat.mul_add, Nat.pow_add, Nat.mul_comm]
    simp only [leValue, ih, List.length_cons, List.range_succ_eq_map, List.map_cons, List.map_map, List.sum_cons,
      Function.comp_def, Nat.succ_eq_add_one, h, List.getD_cons_succ, List.getD_cons_zero, Nat.mul_zero, Nat.pow_zero,
      Nat.mul_one, Nat.mul_left_comm _ 256, List.sum_map_mul_left]

theorem leValue_lt (l : List Byte) : leValue l < 256 ^ l.length := by
  induction l with
  | nil => simp [leValue]
  | cons x xs ih => have := x.isLt; simp only [leValue, List.length_cons, Nat.pow_succ]; omega

/-- `LEBYTES64` inverts `LE64` (00_scope.md R14). -/
theorem leValue_leBytes64 (v : DWord) : leValue (leBytes64 v) = v.toNat := by
  have h := v.isLt
  simp only [leBytes64, List.range, List.range.loop, List.map, leValue, BitVec.extractLsb'_toNat]
  simp only [Nat.shiftRight_eq_div_pow]
  omega

/-- A wire word stored at an offset reads back as itself (00_scope.md R14, 20_memory.md R53). -/
theorem le64_stored (a c : List Byte) (v : DWord) : le64 (a ++ (leBytes64 v ++ c)) a.length = v := by
  have h : memRead (a ++ (leBytes64 v ++ c)) a.length 8 = leBytes64 v := by
    rw [memRead, slice_append_right _ _ _ _ (Nat.le_refl _), slice_append_left _ _ _ _ (by simp)]
    simp [slice]
  rw [le64, h, leValue_leBytes64, BitVec.ofNat_toNat, BitVec.setWidth_eq]

theorem le64_append_left (a b : List Byte) (k : Nat) (h : k + 8 ≤ a.length) : le64 (a ++ b) k = le64 a k := by
  rw [le64, le64, memRead, memRead, slice_append_left _ _ _ _ h]

theorem le64_append_right (a b : List Byte) (k : Nat) : le64 (a ++ b) (a.length + k) = le64 b k := by
  rw [le64, le64, memRead, memRead, slice_append_right _ _ _ _ (by omega)]
  congr 3 <;> omega

end Sys2Proof.Machine
end

