-- ==== Sys2Proof/Laws/Status.lean ====
section
/-! SUPPORT. The two status words as numbers, and their fields. -/

namespace Sys2Proof.Machine

/-- Concatenation as a number. -/
theorem append_toNat {m n : Nat} (x : BitVec m) (y : BitVec n) : (x ++ y).toNat = x.toNat * 2 ^ n + y.toNat := by
  rw [BitVec.toNat_append, ← Nat.shiftLeft_add_eq_or_of_lt y.isLt, Nat.shiftLeft_eq]

/-- `RX_STATUS` as a number (10_state.md R28). -/
theorem rxStatusWord_toNat (reason : BitVec 4) (discard valid : Bool) (dl sk : Nat) :
    (rxStatusWord reason discard valid dl sk).toNat =
      reason.toNat + discard.toNat * 2 ^ 4 + valid.toNat * 2 ^ 5 + dl % 2 ^ 13 * 2 ^ 6 + sk % 2 ^ 13 * 2 ^ 19 := by
  simp only [rxStatusWord, append_toNat, BitVec.toNat_ofNat, BitVec.toNat_ofBool]
  omega

/-- `TX_STATUS` as a number (10_state.md R29, 41_tx_framing.md R170). -/
theorem txStatusWord_toNat (valid failed : Bool) (fail : BitVec 2) (drop : Bool) (pad enc : Nat) :
    (txStatusWord valid failed fail drop pad enc).toNat =
      valid.toNat + failed.toNat * 2 + fail.toNat * 2 ^ 2 + drop.toNat * 2 ^ 4 + pad % 2 ^ 4 * 2 ^ 5
        + enc % 2 ^ 23 * 2 ^ 9 := by
  simp only [txStatusWord, append_toNat, BitVec.toNat_ofNat, BitVec.toNat_ofBool]
  omega

/-- A flag bit as a number. -/
theorem getLsbD_eq_toNat {n : Nat} (w : BitVec n) (k : Nat) : w.getLsbD k = decide (w.toNat / 2 ^ k % 2 = 1) := by
  rw [BitVec.getLsbD, Nat.testBit_eq_decide_div_mod_eq]

variable (reason : BitVec 4) (discard valid : Bool) (dl sk : Nat)

@[simp] theorem rxReason_word : rxReason (rxStatusWord reason discard valid dl sk) = reason := by
  have := reason.isLt
  refine BitVec.eq_of_toNat_eq ?_
  rw [rxReason, BitVec.extractLsb'_toNat, rxStatusWord_toNat, Nat.shiftRight_zero]
  omega

@[simp] theorem rxDiscardBit_word : rxDiscardBit (rxStatusWord reason discard valid dl sk) = discard := by
  have := reason.isLt
  rw [rxDiscardBit, getLsbD_eq_toNat, rxStatusWord_toNat]
  cases discard <;> cases valid <;> simp <;> omega

@[simp] theorem rxValidBit_word : rxValidBit (rxStatusWord reason discard valid dl sk) = valid := by
  have := reason.isLt
  rw [rxValidBit, getLsbD_eq_toNat, rxStatusWord_toNat]
  cases discard <;> cases valid <;> simp <;> omega

@[simp] theorem rxDelivered_word : rxDelivered (rxStatusWord reason discard valid dl sk) = dl % 8192 := by
  have := reason.isLt
  have := Bool.toNat_lt discard
  have := Bool.toNat_lt valid
  rw [rxDelivered, BitVec.extractLsb'_toNat, rxStatusWord_toNat, Nat.shiftRight_eq_div_pow]
  omega

@[simp] theorem rxSkipped_word : rxSkipped (rxStatusWord reason discard valid dl sk) = sk % 8192 := by
  have := reason.isLt
  have := Bool.toNat_lt discard
  have := Bool.toNat_lt valid
  rw [rxSkipped, BitVec.extractLsb'_toNat, rxStatusWord_toNat, Nat.shiftRight_eq_div_pow]
  omega

variable (failed drop : Bool) (fail : BitVec 2) (pad enc : Nat)

@[simp] theorem txValidBit_word : txValidBit (txStatusWord valid failed fail drop pad enc) = valid := by
  rw [txValidBit, getLsbD_eq_toNat, txStatusWord_toNat]
  cases valid <;> simp <;> omega

@[simp] theorem txFailedBit_word : txFailedBit (txStatusWord valid failed fail drop pad enc) = failed := by
  have := Bool.toNat_lt valid
  rw [txFailedBit, getLsbD_eq_toNat, txStatusWord_toNat]
  cases failed <;> simp <;> omega

@[simp] theorem txFail_word : txFail (txStatusWord valid failed fail drop pad enc) = fail := by
  have := fail.isLt
  have := Bool.toNat_lt valid
  have := Bool.toNat_lt failed
  refine BitVec.eq_of_toNat_eq ?_
  rw [txFail, BitVec.extractLsb'_toNat, txStatusWord_toNat, Nat.shiftRight_eq_div_pow]
  omega

@[simp] theorem txDropPadd_word : txDropPadd (txStatusWord valid failed fail drop pad enc) = drop := by
  have := fail.isLt
  have := Bool.toNat_lt valid
  have := Bool.toNat_lt failed
  rw [txDropPadd, getLsbD_eq_toNat, txStatusWord_toNat]
  cases drop <;> simp <;> omega

@[simp] theorem txPadding_word : txPadding (txStatusWord valid failed fail drop pad enc) = pad % 16 := by
  have := fail.isLt
  have := Bool.toNat_lt valid
  have := Bool.toNat_lt failed
  have := Bool.toNat_lt drop
  rw [txPadding, BitVec.extractLsb'_toNat, txStatusWord_toNat, Nat.shiftRight_eq_div_pow]
  omega

@[simp] theorem txEncLen_word : txEncLen (txStatusWord valid failed fail drop pad enc) = enc % 2 ^ 23 := by
  have := fail.isLt
  have := Bool.toNat_lt valid
  have := Bool.toNat_lt failed
  have := Bool.toNat_lt drop
  rw [txEncLen, BitVec.extractLsb'_toNat, txStatusWord_toNat, Nat.shiftRight_eq_div_pow]
  omega

end Sys2Proof.Machine
end

