-- ==== Sys2Proof/Laws/Decode.lean ====
section
/-! SUPPORT. A command word as a number and as its four fields, and everything the decoder can answer. -/

namespace Sys2Proof.Machine

theorem mkCw_toNat (rsv : BitVec 19) (v : Bool) (csr : BitVec 8) (opc : BitVec 4) :
    (mkCw rsv v csr opc).toNat = rsv.toNat * 2 ^ 13 + v.toNat * 2 ^ 12 + csr.toNat * 2 ^ 4 + opc.toNat := by
  simp only [mkCw, append_toNat, BitVec.toNat_ofBool]; omega

theorem toNat_decide_one (n : Nat) : (decide (n % 2 = 1)).toNat = n % 2 := by
  rcases Nat.mod_two_eq_zero_or_one n with h | h <;> simp [h]

/-- A command word is its four fields (30_encoding.md R71). -/
theorem cw_toNat (cw : Word) :
    cw.toNat = (cwRsv cw).toNat * 2 ^ 13 + (cwV cw).toNat * 2 ^ 12 + (cwCsr cw).toNat * 2 ^ 4 + (cwOpc cw).toNat := by
  have := cw.isLt
  rw [cwV, getLsbD_eq_toNat, toNat_decide_one]
  simp only [cwRsv, cwCsr, cwOpc, BitVec.extractLsb'_toNat, Nat.shiftRight_eq_div_pow]
  omega

@[simp] theorem mkCw_fields (cw : Word) : mkCw (cwRsv cw) (cwV cw) (cwCsr cw) (cwOpc cw) = cw :=
  BitVec.eq_of_toNat_eq (by rw [mkCw_toNat, ← cw_toNat])

/-- The fields of a word made of fields (30_encoding.md R71). -/
theorem fields_mkCw (rsv : BitVec 19) (v : Bool) (csr : BitVec 8) (opc : BitVec 4) :
    cwRsv (mkCw rsv v csr opc) = rsv ∧ cwV (mkCw rsv v csr opc) = v ∧ cwCsr (mkCw rsv v csr opc) = csr ∧
      cwOpc (mkCw rsv v csr opc) = opc := by
  have h := cw_toNat (mkCw rsv v csr opc)
  rw [mkCw_toNat] at h
  have h1 := rsv.isLt
  have h2 := csr.isLt
  have h3 := opc.isLt
  have h4 := Bool.toNat_lt v
  have h5 := (cwCsr (mkCw rsv v csr opc)).isLt
  have h6 := (cwOpc (mkCw rsv v csr opc)).isLt
  have h7 := Bool.toNat_lt (cwV (mkCw rsv v csr opc))
  refine ⟨BitVec.eq_of_toNat_eq (by omega), ?_, BitVec.eq_of_toNat_eq (by omega), BitVec.eq_of_toNat_eq (by omega)⟩
  have h8 : (cwV (mkCw rsv v csr opc)).toNat = v.toNat := by omega
  revert h8; cases cwV (mkCw rsv v csr opc) <;> cases v <;> simp

/-- Everything the decoder accepts (30_encoding.md R78). -/
theorem decode_ok_iff (p : Presented) (i : Instr) :
    decode p = .ok i ↔ cwRsv p.cw = 0 ∧
      ((cwOpc p.cw = 1 ∧ cwV p.cw = false ∧ i = .cfgw (cwCsr p.cw) p.ops.data) ∨
        (cwOpc p.cw = 2 ∧ cwV p.cw = false ∧ i = .cfgr (cwCsr p.cw)) ∨
        (cwOpc p.cw = 3 ∧ cwV p.cw = false ∧ cwCsr p.cw = 0 ∧ i = .rxd p.ops.buf) ∨
        (cwOpc p.cw = 4 ∧ cwCsr p.cw = 0 ∧
          i = .txe (cwV p.cw) (op0Mss p.ops.op0) (op0Tci p.ops.op0) p.ops.segs p.ops.hr p.ops.tr)) := by
  unfold decode
  constructor
  · intro h
    split at h
    · simp at h
    rename_i h0
    refine ⟨by simpa using h0, ?_⟩
    repeat' split at h
    all_goals first
      | (simp at h; done)
      | (simp only [Except.ok.injEq] at h; subst h; simp_all)
  · rintro ⟨h0, ⟨h1, h2, rfl⟩ | ⟨h1, h2, rfl⟩ | ⟨h1, h2, h3, rfl⟩ | ⟨h1, h3, rfl⟩⟩ <;> simp [*]

/-- An operand word is its two fields (30_encoding.md R75). -/
theorem op0_fields (w : Word) : (op0Tci w ++ op0Mss w : BitVec 32) = w := by
  have := w.isLt
  refine BitVec.eq_of_toNat_eq ?_
  simp only [append_toNat, op0Tci, op0Mss, BitVec.extractLsb'_toNat, Nat.shiftRight_eq_div_pow]
  omega

theorem fields_op0 (tci mss : BitVec 16) :
    op0Mss (tci ++ mss : BitVec 32) = mss ∧ op0Tci (tci ++ mss : BitVec 32) = tci := by
  have h1 := tci.isLt
  have h2 := mss.isLt
  constructor <;> refine BitVec.eq_of_toNat_eq ?_ <;>
    simp only [op0Tci, op0Mss, BitVec.extractLsb'_toNat, append_toNat, Nat.shiftRight_eq_div_pow] <;> omega

theorem mkCw_and (r r' : BitVec 19) (v v' : Bool) (c c' : BitVec 8) (o o' : BitVec 4) :
    mkCw r v c o &&& mkCw r' v' c' o' = mkCw (r &&& r') (v && v') (c &&& c') (o &&& o') := by
  have h : BitVec.ofBool v &&& BitVec.ofBool v' = BitVec.ofBool (v && v') := by cases v <;> cases v' <;> rfl
  have h2 : (((r ++ BitVec.ofBool v) ++ c) ++ o) &&& (((r' ++ BitVec.ofBool v') ++ c') ++ o') =
      (((r &&& r') ++ BitVec.ofBool (v && v')) ++ (c &&& c')) ++ (o &&& o') := by
    rw [← h, BitVec.and_append, BitVec.and_append, BitVec.and_append]
  exact h2

/-- The mask of the rows `CFGW` and `CFGR` keeps every field but `CSR` (30_encoding.md R73). -/
theorem cw_and_csrFree (cw : Word) : cw &&& 0xFFFFF00F = mkCw (cwRsv cw) (cwV cw) 0 (cwOpc cw) := by
  have h : (0xFFFFF00F : Word) = mkCw (BitVec.allOnes 19) true 0 (BitVec.allOnes 4) := by decide
  conv_lhs => rw [h, ← mkCw_fields cw]
  simp only [mkCw_and, BitVec.and_allOnes, Bool.and_true]
  congr 1; simp

/-- The mask of the row `TXE` keeps every field but `V` (30_encoding.md R73). -/
theorem cw_and_vFree (cw : Word) : cw &&& 0xFFFFEFFF = mkCw (cwRsv cw) false (cwCsr cw) (cwOpc cw) := by
  have h : (0xFFFFEFFF : Word) = mkCw (BitVec.allOnes 19) false (BitVec.allOnes 8) (BitVec.allOnes 4) := by decide
  conv_lhs => rw [h, ← mkCw_fields cw]
  simp only [mkCw_and, BitVec.and_allOnes, Bool.and_false]

end Sys2Proof.Machine
end

