-- ==== Sys2Proof/Laws/Fields.lean ====
section
/-! SUPPORT. Reading and writing one field of a wire word, and what a usable layout says of its fields. -/

namespace Sys2Proof.Machine

/-- A field's value is below two to its width. -/
theorem getField_lt (f : Field) (w : DWord) : getField f w < 2 ^ f.width := Nat.mod_lt _ (by positivity)

theorem testBit_getField (f : Field) (w : DWord) (k : Nat) :
    (getField f w).testBit k = (decide (k < f.width) && w.getLsbD (f.lo + k)) := by
  rw [getField, Nat.testBit_mod_two_pow, Nat.testBit_div_two_pow, BitVec.getLsbD, Nat.add_comm k]

theorem getLsbD_fieldMask (f : Field) (k : Nat) :
    (fieldMask f).getLsbD k = (decide (k < 64) && (decide (f.lo ≤ k) && decide (k < f.lo + f.width))) := by
  rw [fieldMask, BitVec.getLsbD_ofNat, Nat.testBit_mul_two_pow, Nat.testBit_two_pow_sub_one]
  by_cases h : f.lo ≤ k <;> simp [h]
  have h2 : (k - f.lo < f.width) = (k < f.lo + f.width) := propext (by omega)
  simp [h2]

/-- Every bit of a word after a field is written: the value's bits inside the field, the old bits outside. -/
theorem getLsbD_setField (f : Field) (w : DWord) (v k : Nat) (hk : k < 64) :
    (setField f w v).getLsbD k =
      if f.lo ≤ k ∧ k < f.lo + f.width then v.testBit (k - f.lo) else w.getLsbD k := by
  rw [setField, BitVec.getLsbD_or, BitVec.getLsbD_and, BitVec.getLsbD_not, getLsbD_fieldMask, BitVec.getLsbD_ofNat,
    Nat.testBit_mul_two_pow, Nat.testBit_mod_two_pow]
  by_cases h1 : f.lo ≤ k <;> by_cases h2 : k < f.lo + f.width <;> simp [h1, h2, hk]
  · have h3 : k - f.lo < f.width := by omega
    simp [h3]
  · intro h3; omega

/-- Reading back the field just written (00_scope.md R12). -/
theorem getField_setField_same (f : Field) (w : DWord) (v : Nat) (hf : f.lo + f.width ≤ 64) :
    getField f (setField f w v) = v % 2 ^ f.width := by
  refine Nat.eq_of_testBit_eq fun k => ?_
  rw [testBit_getField, Nat.testBit_mod_two_pow]
  by_cases hk : k < f.width
  · rw [getLsbD_setField _ _ _ _ (by omega)]
    simp [hk]
  · simp [hk]

/-- Writing one field leaves every field apart from it alone (00_scope.md R12). -/
theorem getField_setField_apart (f g : Field) (w : DWord) (v : Nat) (hg : g.lo + g.width ≤ 64)
    (h : fieldsApart f g = true ∨ fieldsApart g f = true) : getField g (setField f w v) = getField g w := by
  refine Nat.eq_of_testBit_eq fun k => ?_
  rw [testBit_getField, testBit_getField]
  by_cases hk : k < g.width
  · rw [getLsbD_setField _ _ _ _ (by omega), if_neg]
    simp only [fieldsApart, Bool.or_eq_true, decide_eq_true_eq] at h
    omega
  · simp [hk]

theorem getField_zero (f : Field) : getField f 0#64 = 0 := by simp [getField]

/-- The width and the place of each field of a usable layout (60_exceptions.md R255). -/
structure UsableLayout (lay : Layout) : Prop where
  rxtCnt : lay.rxtCnt.width = 13 ∧ lay.rxtCnt.lo + 13 ≤ 64
  rxtOff : lay.rxtOff.width = 19 ∧ lay.rxtOff.lo + 19 ≤ 64
  rxdL4err : lay.rxdL4err.width = 1 ∧ lay.rxdL4err.lo + 1 ≤ 64
  rxdL3err : lay.rxdL3err.width = 1 ∧ lay.rxdL3err.lo + 1 ≤ 64
  rxdL4t : lay.rxdL4t.width = 3 ∧ lay.rxdL4t.lo + 3 ≤ 64
  rxdVlan : lay.rxdVlan.width = 1 ∧ lay.rxdVlan.lo + 1 ≤ 64
  rxdRxok : lay.rxdRxok.width = 1 ∧ lay.rxdRxok.lo + 1 ≤ 64
  rxdLen : lay.rxdLen.width = 15 ∧ lay.rxdLen.lo + 15 ≤ 64
  rxdDrop : lay.rxdDrop.width = 1 ∧ lay.rxdDrop.lo + 1 ≤ 64
  rxdVid : lay.rxdVid.width = 12 ∧ lay.rxdVid.lo + 12 ≤ 64
  txhLen : lay.txhLen.width = 21 ∧ lay.txhLen.lo + 21 ≤ 64
  txhDroppad : lay.txhDroppad.width = 1 ∧ lay.txhDroppad.lo + 1 ≤ 64
  txhVlan : lay.txhVlan.width = 1 ∧ lay.txhVlan.lo + 1 ≤ 64
  txhMss : lay.txhMss.width = 15 ∧ lay.txhMss.lo + 15 ≤ 64
  txhTci : lay.txhTci.width = 16 ∧ lay.txhTci.lo + 16 ≤ 64
  trailerApart : allApart (trailerFields lay) = true
  descApart : allApart (descFields lay) = true
  headerApart : allApart (headerFields lay) = true

theorem layoutValid_usable (lay : Layout) (h : layoutValid lay = true) : UsableLayout lay := by
  simp only [layoutValid, fieldFits, Bool.and_eq_true, decide_eq_true_eq] at h
  obtain ⟨⟨⟨⟨⟨⟨⟨⟨⟨⟨⟨⟨⟨⟨⟨⟨⟨h1, h2⟩, h3⟩, h4⟩, h5⟩, h6⟩, h7⟩, h8⟩, h9⟩, h10⟩, h11⟩, h12⟩, h13⟩, h14⟩, h15⟩, h16⟩, h17⟩, h18⟩ := h
  constructor <;> first | assumption | (refine ⟨And.left ‹_›, ?_⟩; omega)

theorem defaultLayout_valid : layoutValid defaultLayout = true := by decide

/-- The largest length and segment size under a usable layout (00_scope.md R8). -/
theorem txLenMax_eq (lay : Layout) (h : layoutValid lay = true) : txLenMax lay = 2 ^ 21 - 1 := by
  rw [txLenMax, (layoutValid_usable lay h).txhLen.1]

theorem txMssMax_eq (lay : Layout) (h : layoutValid lay = true) : txMssMax lay = 2 ^ 15 - 1 := by
  rw [txMssMax, (layoutValid_usable lay h).txhMss.1]

end Sys2Proof.Machine
end

