-- ==== Sys2Proof/Laws/Rx.lean ====
section
/-! SUPPORT. The descriptor walk and the validation of a transfer, said once. -/

namespace Sys2Proof.Machine

@[simp] theorem consumedUpTo_zero (ds : List Desc) : consumedUpTo ds 0 = 0 := by simp [consumedUpTo]

@[simp] theorem consumedUpTo_nil (k : Nat) : consumedUpTo [] k = 0 := by simp [consumedUpTo]

@[simp] theorem consumedUpTo_cons (d : Desc) (ds : List Desc) (k : Nat) :
    consumedUpTo (d :: ds) (k + 1) = roundUp8 d.len + consumedUpTo ds k := by simp [consumedUpTo]

@[simp] theorem descriptors_length (lay : Layout) (b : List Byte) (off pc : Nat) :
    (descriptors lay b off pc).length = pc := by simp [descriptors]

theorem consumedUpTo_succ (ds : List Desc) (k : Nat) (h : k < ds.length) :
    consumedUpTo ds (k + 1) = consumedUpTo ds k + roundUp8 ds[k].len := by
  simp only [consumedUpTo, List.take_succ_eq_append_getElem h, List.map_append, List.sum_append, List.map_cons,
    List.map_nil, List.sum_cons, List.sum_nil, Nat.add_zero]

theorem consumedUpTo_le (ds : List Desc) {j k : Nat} (h : j ≤ k) : consumedUpTo ds j ≤ consumedUpTo ds k := by
  induction ds generalizing j k with
  | nil => simp
  | cons d ds ih =>
    cases j with
    | zero => simp
    | succ j =>
      cases k with
      | zero => omega
      | succ k => simp only [consumedUpTo_cons]; have := ih (j := j) (k := k) (by omega); omega

/-- Everything the walk can answer (40_rx_reassembly.md R119 to R121). -/
theorem walkSlots_eq (off : Nat) (ds : List Desc) (c : Nat) :
    walkSlots off ds c =
      if ∃ k < ds.length, off < c + consumedUpTo ds (k + 1) then .error .overrun
      else if c + consumedUpTo ds ds.length ≠ off then .error .sumMismatch
      else .ok (ds.mapIdx fun i d => ⟨c + consumedUpTo ds i, d⟩) := by
  induction ds generalizing c with
  | nil => simp [walkSlots]
  | cons d ds ih =>
    have hex : (∃ k < (d :: ds).length, off < c + consumedUpTo (d :: ds) (k + 1)) ↔
        (off < c + roundUp8 d.len ∨ ∃ k < ds.length, off < c + roundUp8 d.len + consumedUpTo ds (k + 1)) := by
      constructor
      · rintro ⟨k, hk, h⟩
        cases k with
        | zero => left; simpa using h
        | succ k => right; exact ⟨k, by simpa using hk, by simp only [consumedUpTo_cons] at h; omega⟩
      · rintro (h | ⟨k, hk, h⟩)
        · exact ⟨0, by simp, by simpa using h⟩
        · exact ⟨k + 1, by simpa using hk, by simp only [consumedUpTo_cons]; omega⟩
    simp only [hex, walkSlots]
    by_cases h1 : off < c + roundUp8 d.len
    · simp [h1]
    · simp only [h1, if_false, false_or]
      rw [ih]
      by_cases h2 : ∃ k < ds.length, off < c + roundUp8 d.len + consumedUpTo ds (k + 1)
      · simp only [h2, if_true]
      · simp only [h2, if_false, List.length_cons, consumedUpTo_cons]
        by_cases h3 : c + roundUp8 d.len + consumedUpTo ds ds.length = off
        · have h4 : c + (roundUp8 d.len + consumedUpTo ds ds.length) = off := by omega
          simp [h3, h4, List.mapIdx_cons, Nat.add_assoc]
        · have h4 : ¬ c + (roundUp8 d.len + consumedUpTo ds ds.length) = off := by omega
          simp [h3, h4]

/-- The slots of a transfer that passes (40_rx_reassembly.md R119). -/
def slotsOf (ds : List Desc) : List Slot := ds.mapIdx fun i d => ⟨consumedUpTo ds i, d⟩

@[simp] theorem slotsOf_length (ds : List Desc) : (slotsOf ds).length = ds.length := by simp [slotsOf]

/-- When a transfer passes every framing check, and which slots it then has (40_rx_reassembly.md R112 to R121, R133). -/
theorem validateTransfer_ok_iff (lay : Layout) (b : List Byte) (slots : List Slot) :
    validateTransfer lay b = .ok slots ↔
      let pc := packetCount lay (trailerWord b)
      let off := trailerOffset lay (trailerWord b)
      let ds := descriptors lay b off pc
      8 ≤ b.length ∧ b.length = off + 8 * (pc + 1) ∧ 0 < pc ∧ consumedUpTo ds pc = off ∧ slots = slotsOf ds := by
  simp only [validateTransfer, walkSlots_eq, descriptors_length, Nat.zero_add]
  split
  · simp only [reduceCtorEq, false_iff]; omega
  split
  · simp only [reduceCtorEq, false_iff]; omega
  split
  · simp only [reduceCtorEq, false_iff]; omega
  split
  · simp only [reduceCtorEq, false_iff]; omega
  split
  · rename_i h
    obtain ⟨k, hk, h⟩ := h
    simp only [reduceCtorEq, false_iff]
    have := consumedUpTo_le (descriptors lay b (trailerOffset lay (trailerWord b)) (packetCount lay (trailerWord b)))
      (show k + 1 ≤ packetCount lay (trailerWord b) by omega)
    omega
  split
  · simp only [reduceCtorEq, false_iff]; omega
  · simp only [Except.ok.injEq, slotsOf]
    constructor
    · intro h; refine ⟨by omega, by omega, by omega, by omega, h.symm⟩
    · intro h; exact h.2.2.2.2.symm

/-- The range check never fails (40_rx_reassembly.md R115). -/
theorem validateTransfer_ne_offsetRange (lay : Layout) (b : List Byte) :
    validateTransfer lay b ≠ .error .offsetRange := by
  simp only [validateTransfer, walkSlots_eq]
  repeat' split
  all_goals simp
  all_goals omega

/-- A slot of a passing transfer lies in the data area (40_rx_reassembly.md R125). -/
theorem slotsOf_inBounds (ds : List Desc) (sl : Slot) (h : sl ∈ slotsOf ds) :
    sl.desc ∈ ds ∧ sl.start + sl.desc.len ≤ consumedUpTo ds ds.length := by
  obtain ⟨i, hi, rfl⟩ := List.mem_mapIdx.mp h
  have h1 := consumedUpTo_succ ds i hi
  have h2 := consumedUpTo_le ds (show i + 1 ≤ ds.length by omega)
  have h3 := roundUp8_ge ds[i].len
  exact ⟨List.getElem_mem hi, by simp only; omega⟩

/-- The packet count, the trailer offset and a frame length under a usable layout (00_scope.md R9). -/
theorem packetCount_lt (lay : Layout) (h : layoutValid lay = true) (t : DWord) : packetCount lay t < 8192 := by
  have := getField_lt lay.rxtCnt t
  rwa [(layoutValid_usable lay h).rxtCnt.1] at this

theorem trailerOffset_lt (lay : Layout) (h : layoutValid lay = true) (t : DWord) : trailerOffset lay t < 524288 := by
  have := getField_lt lay.rxtOff t
  rwa [(layoutValid_usable lay h).rxtOff.1] at this

theorem decodeDesc_len_lt (lay : Layout) (h : layoutValid lay = true) (w : DWord) : (decodeDesc lay w).len < 32768 := by
  have := getField_lt lay.rxdLen w
  rwa [(layoutValid_usable lay h).rxdLen.1] at this

end Sys2Proof.Machine
end

