-- ==== Sys2Proof/Laws/State.lean ====
section
/-! SUPPORT. One lemma per field of State and per state update, true by rfl; likewise for the registers. -/

namespace Sys2Proof.Machine

variable (s : State)

/-! ## `respond` -/

@[simp] theorem respond_csr (c : RspCode) (d : Word) : (respond c d s).csr = s.csr := rfl
@[simp] theorem respond_fs (c : RspCode) (d : Word) : (respond c d s).fs = s.fs := rfl
@[simp] theorem respond_wo (c : RspCode) (d : Word) : (respond c d s).wo = s.wo := rfl
@[simp] theorem respond_rsp (c : RspCode) (d : Word) : (respond c d s).rsp = ⟨codeBits c, d⟩ := rfl
@[simp] theorem respond_params (c : RspCode) (d : Word) : (respond c d s).params = s.params := rfl
@[simp] theorem respond_host (c : RspCode) (d : Word) : (respond c d s).host = s.host := rfl
@[simp] theorem respond_position (c : RspCode) (d : Word) : (respond c d s).position = s.position := rfl
@[simp] theorem respond_free (c : RspCode) (d : Word) : (respond c d s).free = s.free := rfl

/-! ## `raiseCode` -/

@[simp] theorem raiseCode_csr (c : RspCode) : (raiseCode c s).csr = s.csr := rfl
@[simp] theorem raiseCode_fs (c : RspCode) : (raiseCode c s).fs = s.fs := rfl
@[simp] theorem raiseCode_wo (c : RspCode) : (raiseCode c s).wo = s.wo := rfl
@[simp] theorem raiseCode_rsp (c : RspCode) : (raiseCode c s).rsp = ⟨codeBits c, 0⟩ := rfl
@[simp] theorem raiseCode_params (c : RspCode) : (raiseCode c s).params = s.params := rfl
@[simp] theorem raiseCode_host (c : RspCode) : (raiseCode c s).host = s.host := rfl
@[simp] theorem raiseCode_position (c : RspCode) : (raiseCode c s).position = s.position := rfl
@[simp] theorem raiseCode_free (c : RspCode) : (raiseCode c s).free = s.free := rfl

/-! ## `illegalCommand` -/

@[simp] theorem illegalCommand_csr : (illegalCommand s).csr = s.csr := rfl
@[simp] theorem illegalCommand_fs : (illegalCommand s).fs = s.fs := rfl
@[simp] theorem illegalCommand_wo : (illegalCommand s).wo = s.wo := rfl
@[simp] theorem illegalCommand_rsp : (illegalCommand s).rsp = ⟨1, 0⟩ := rfl
@[simp] theorem illegalCommand_params : (illegalCommand s).params = s.params := rfl
@[simp] theorem illegalCommand_host : (illegalCommand s).host = s.host := rfl
@[simp] theorem illegalCommand_position : (illegalCommand s).position = s.position := rfl
@[simp] theorem illegalCommand_free : (illegalCommand s).free = s.free := rfl

/-! ## `emitFrames` -/

@[simp] theorem emitFrames_csr (fr : List Frame) : (emitFrames fr s).csr = s.csr := rfl
@[simp] theorem emitFrames_fs (fr : List Frame) : (emitFrames fr s).fs = s.fs ++ fr := rfl
@[simp] theorem emitFrames_wo (fr : List Frame) : (emitFrames fr s).wo = s.wo := rfl
@[simp] theorem emitFrames_rsp (fr : List Frame) : (emitFrames fr s).rsp = s.rsp := rfl
@[simp] theorem emitFrames_params (fr : List Frame) : (emitFrames fr s).params = s.params := rfl
@[simp] theorem emitFrames_host (fr : List Frame) : (emitFrames fr s).host = s.host := rfl
@[simp] theorem emitFrames_position (fr : List Frame) : (emitFrames fr s).position = s.position := rfl
@[simp] theorem emitFrames_free (fr : List Frame) : (emitFrames fr s).free = s.free := rfl

/-! ## `emitWire` -/

@[simp] theorem emitWire_csr (x : List Byte) : (emitWire x s).csr = s.csr := rfl
@[simp] theorem emitWire_fs (x : List Byte) : (emitWire x s).fs = s.fs := rfl
@[simp] theorem emitWire_wo (x : List Byte) : (emitWire x s).wo = s.wo ++ [x] := rfl
@[simp] theorem emitWire_rsp (x : List Byte) : (emitWire x s).rsp = s.rsp := rfl
@[simp] theorem emitWire_params (x : List Byte) : (emitWire x s).params = s.params := rfl
@[simp] theorem emitWire_host (x : List Byte) : (emitWire x s).host = s.host := rfl
@[simp] theorem emitWire_position (x : List Byte) : (emitWire x s).position = s.position := rfl
@[simp] theorem emitWire_free (x : List Byte) : (emitWire x s).free = s.free := rfl

/-! ## `writeRxStatus` -/

@[simp] theorem writeRxStatus_csr (v : Word) : (writeRxStatus v s).csr = csrWrite s.csr .rxStatus v := rfl
@[simp] theorem writeRxStatus_fs (v : Word) : (writeRxStatus v s).fs = s.fs := rfl
@[simp] theorem writeRxStatus_wo (v : Word) : (writeRxStatus v s).wo = s.wo := rfl
@[simp] theorem writeRxStatus_rsp (v : Word) : (writeRxStatus v s).rsp = s.rsp := rfl
@[simp] theorem writeRxStatus_params (v : Word) : (writeRxStatus v s).params = s.params := rfl
@[simp] theorem writeRxStatus_host (v : Word) : (writeRxStatus v s).host = s.host := rfl
@[simp] theorem writeRxStatus_position (v : Word) : (writeRxStatus v s).position = s.position := rfl
@[simp] theorem writeRxStatus_free (v : Word) : (writeRxStatus v s).free = s.free := rfl

/-! ## `writeTxStatus` -/

@[simp] theorem writeTxStatus_csr (v : Word) : (writeTxStatus v s).csr = csrWrite s.csr .txStatus v := rfl
@[simp] theorem writeTxStatus_fs (v : Word) : (writeTxStatus v s).fs = s.fs := rfl
@[simp] theorem writeTxStatus_wo (v : Word) : (writeTxStatus v s).wo = s.wo := rfl
@[simp] theorem writeTxStatus_rsp (v : Word) : (writeTxStatus v s).rsp = s.rsp := rfl
@[simp] theorem writeTxStatus_params (v : Word) : (writeTxStatus v s).params = s.params := rfl
@[simp] theorem writeTxStatus_host (v : Word) : (writeTxStatus v s).host = s.host := rfl
@[simp] theorem writeTxStatus_position (v : Word) : (writeTxStatus v s).position = s.position := rfl
@[simp] theorem writeTxStatus_free (v : Word) : (writeTxStatus v s).free = s.free := rfl

/-! ## `holdTransfer` -/

@[simp] theorem holdTransfer_csr (b : List Byte) : (holdTransfer b s).csr = s.csr := rfl
@[simp] theorem holdTransfer_fs (b : List Byte) : (holdTransfer b s).fs = s.fs := rfl
@[simp] theorem holdTransfer_wo (b : List Byte) : (holdTransfer b s).wo = s.wo := rfl
@[simp] theorem holdTransfer_rsp (b : List Byte) : (holdTransfer b s).rsp = s.rsp := rfl
@[simp] theorem holdTransfer_params (b : List Byte) : (holdTransfer b s).params = s.params := rfl
@[simp] theorem holdTransfer_host (b : List Byte) : (holdTransfer b s).host = { s.host with rxBuf := b } := rfl
@[simp] theorem holdTransfer_position (b : List Byte) : (holdTransfer b s).position = s.position := rfl
@[simp] theorem holdTransfer_free (b : List Byte) : (holdTransfer b s).free = s.free := rfl

/-! ## `useSegments` -/

@[simp] theorem useSegments_csr (segs : List (List Byte)) : (useSegments segs s).csr = s.csr := rfl
@[simp] theorem useSegments_fs (segs : List (List Byte)) : (useSegments segs s).fs = s.fs := rfl
@[simp] theorem useSegments_wo (segs : List (List Byte)) : (useSegments segs s).wo = s.wo := rfl
@[simp] theorem useSegments_rsp (segs : List (List Byte)) : (useSegments segs s).rsp = s.rsp := rfl
@[simp] theorem useSegments_params (segs : List (List Byte)) : (useSegments segs s).params = s.params := rfl
@[simp] theorem useSegments_host (segs : List (List Byte)) : (useSegments segs s).host = { s.host with txSegs := usedSegments s.free segs } := rfl
@[simp] theorem useSegments_position (segs : List (List Byte)) : (useSegments segs s).position = s.position := rfl
@[simp] theorem useSegments_free (segs : List (List Byte)) : (useSegments segs s).free = s.free + 1 := rfl

/-! ## `hostReset` -/

@[simp] theorem hostReset_csr : (hostReset s).csr = Csr.reset := rfl
@[simp] theorem hostReset_fs : (hostReset s).fs = [] := rfl
@[simp] theorem hostReset_wo : (hostReset s).wo = [] := rfl
@[simp] theorem hostReset_rsp : (hostReset s).rsp = ⟨0, 0⟩ := rfl
@[simp] theorem hostReset_params : (hostReset s).params = s.params := rfl
@[simp] theorem hostReset_host : (hostReset s).host = s.host := rfl
@[simp] theorem hostReset_position : (hostReset s).position = s.position := rfl
@[simp] theorem hostReset_free : (hostReset s).free = s.free := rfl

/-! ## `setPending` -/

@[simp] theorem setPending_csr (rest : List HostEvent) : (setPending rest s).csr = s.csr := rfl
@[simp] theorem setPending_fs (rest : List HostEvent) : (setPending rest s).fs = s.fs := rfl
@[simp] theorem setPending_wo (rest : List HostEvent) : (setPending rest s).wo = s.wo := rfl
@[simp] theorem setPending_rsp (rest : List HostEvent) : (setPending rest s).rsp = s.rsp := rfl
@[simp] theorem setPending_params (rest : List HostEvent) : (setPending rest s).params = s.params := rfl
@[simp] theorem setPending_host (rest : List HostEvent) : (setPending rest s).host = { s.host with pending := rest } := rfl
@[simp] theorem setPending_position (rest : List HostEvent) : (setPending rest s).position = s.position := rfl
@[simp] theorem setPending_free (rest : List HostEvent) : (setPending rest s).free = s.free := rfl

/-! ## `completeCommand` -/

@[simp] theorem completeCommand_csr : (completeCommand s).csr = s.csr := rfl
@[simp] theorem completeCommand_fs : (completeCommand s).fs = s.fs := rfl
@[simp] theorem completeCommand_wo : (completeCommand s).wo = s.wo := rfl
@[simp] theorem completeCommand_rsp : (completeCommand s).rsp = s.rsp := rfl
@[simp] theorem completeCommand_params : (completeCommand s).params = s.params := rfl
@[simp] theorem completeCommand_host : (completeCommand s).host = s.host := rfl
@[simp] theorem completeCommand_position : (completeCommand s).position = s.position + 1 := rfl
@[simp] theorem completeCommand_free : (completeCommand s).free = s.free := rfl

/-! ## `csrWrite` -/

@[simp] theorem csrWrite_rxMaxLen_rxMaxLen (c : Csr) (v : Word) : (csrWrite c .rxMaxLen v).rxMaxLen = v &&& 0x0000FFFF := rfl
@[simp] theorem csrWrite_rxMaxLen_rxCtrl (c : Csr) (v : Word) : (csrWrite c .rxMaxLen v).rxCtrl = c.rxCtrl := rfl
@[simp] theorem csrWrite_rxMaxLen_txMaxPkt (c : Csr) (v : Word) : (csrWrite c .rxMaxLen v).txMaxPkt = c.txMaxPkt := rfl
@[simp] theorem csrWrite_rxMaxLen_txCtrl (c : Csr) (v : Word) : (csrWrite c .rxMaxLen v).txCtrl = c.txCtrl := rfl
@[simp] theorem csrWrite_rxMaxLen_rxStatus (c : Csr) (v : Word) : (csrWrite c .rxMaxLen v).rxStatus = c.rxStatus := rfl
@[simp] theorem csrWrite_rxMaxLen_txStatus (c : Csr) (v : Word) : (csrWrite c .rxMaxLen v).txStatus = c.txStatus := rfl
@[simp] theorem csrWrite_rxCtrl_rxMaxLen (c : Csr) (v : Word) : (csrWrite c .rxCtrl v).rxMaxLen = c.rxMaxLen := rfl
@[simp] theorem csrWrite_rxCtrl_rxCtrl (c : Csr) (v : Word) : (csrWrite c .rxCtrl v).rxCtrl = v &&& 0x00000001 := rfl
@[simp] theorem csrWrite_rxCtrl_txMaxPkt (c : Csr) (v : Word) : (csrWrite c .rxCtrl v).txMaxPkt = c.txMaxPkt := rfl
@[simp] theorem csrWrite_rxCtrl_txCtrl (c : Csr) (v : Word) : (csrWrite c .rxCtrl v).txCtrl = c.txCtrl := rfl
@[simp] theorem csrWrite_rxCtrl_rxStatus (c : Csr) (v : Word) : (csrWrite c .rxCtrl v).rxStatus = c.rxStatus := rfl
@[simp] theorem csrWrite_rxCtrl_txStatus (c : Csr) (v : Word) : (csrWrite c .rxCtrl v).txStatus = c.txStatus := rfl
@[simp] theorem csrWrite_txMaxPkt_rxMaxLen (c : Csr) (v : Word) : (csrWrite c .txMaxPkt v).rxMaxLen = c.rxMaxLen := rfl
@[simp] theorem csrWrite_txMaxPkt_rxCtrl (c : Csr) (v : Word) : (csrWrite c .txMaxPkt v).rxCtrl = c.rxCtrl := rfl
@[simp] theorem csrWrite_txMaxPkt_txMaxPkt (c : Csr) (v : Word) : (csrWrite c .txMaxPkt v).txMaxPkt = v &&& 0x0000FFFF := rfl
@[simp] theorem csrWrite_txMaxPkt_txCtrl (c : Csr) (v : Word) : (csrWrite c .txMaxPkt v).txCtrl = c.txCtrl := rfl
@[simp] theorem csrWrite_txMaxPkt_rxStatus (c : Csr) (v : Word) : (csrWrite c .txMaxPkt v).rxStatus = c.rxStatus := rfl
@[simp] theorem csrWrite_txMaxPkt_txStatus (c : Csr) (v : Word) : (csrWrite c .txMaxPkt v).txStatus = c.txStatus := rfl
@[simp] theorem csrWrite_txCtrl_rxMaxLen (c : Csr) (v : Word) : (csrWrite c .txCtrl v).rxMaxLen = c.rxMaxLen := rfl
@[simp] theorem csrWrite_txCtrl_rxCtrl (c : Csr) (v : Word) : (csrWrite c .txCtrl v).rxCtrl = c.rxCtrl := rfl
@[simp] theorem csrWrite_txCtrl_txMaxPkt (c : Csr) (v : Word) : (csrWrite c .txCtrl v).txMaxPkt = c.txMaxPkt := rfl
@[simp] theorem csrWrite_txCtrl_txCtrl (c : Csr) (v : Word) : (csrWrite c .txCtrl v).txCtrl = v &&& 0x00000001 := rfl
@[simp] theorem csrWrite_txCtrl_rxStatus (c : Csr) (v : Word) : (csrWrite c .txCtrl v).rxStatus = c.rxStatus := rfl
@[simp] theorem csrWrite_txCtrl_txStatus (c : Csr) (v : Word) : (csrWrite c .txCtrl v).txStatus = c.txStatus := rfl
@[simp] theorem csrWrite_rxStatus_rxMaxLen (c : Csr) (v : Word) : (csrWrite c .rxStatus v).rxMaxLen = c.rxMaxLen := rfl
@[simp] theorem csrWrite_rxStatus_rxCtrl (c : Csr) (v : Word) : (csrWrite c .rxStatus v).rxCtrl = c.rxCtrl := rfl
@[simp] theorem csrWrite_rxStatus_txMaxPkt (c : Csr) (v : Word) : (csrWrite c .rxStatus v).txMaxPkt = c.txMaxPkt := rfl
@[simp] theorem csrWrite_rxStatus_txCtrl (c : Csr) (v : Word) : (csrWrite c .rxStatus v).txCtrl = c.txCtrl := rfl
@[simp] theorem csrWrite_rxStatus_rxStatus (c : Csr) (v : Word) : (csrWrite c .rxStatus v).rxStatus = v := BitVec.and_allOnes
@[simp] theorem csrWrite_rxStatus_txStatus (c : Csr) (v : Word) : (csrWrite c .rxStatus v).txStatus = c.txStatus := rfl
@[simp] theorem csrWrite_txStatus_rxMaxLen (c : Csr) (v : Word) : (csrWrite c .txStatus v).rxMaxLen = c.rxMaxLen := rfl
@[simp] theorem csrWrite_txStatus_rxCtrl (c : Csr) (v : Word) : (csrWrite c .txStatus v).rxCtrl = c.rxCtrl := rfl
@[simp] theorem csrWrite_txStatus_txMaxPkt (c : Csr) (v : Word) : (csrWrite c .txStatus v).txMaxPkt = c.txMaxPkt := rfl
@[simp] theorem csrWrite_txStatus_txCtrl (c : Csr) (v : Word) : (csrWrite c .txStatus v).txCtrl = c.txCtrl := rfl
@[simp] theorem csrWrite_txStatus_rxStatus (c : Csr) (v : Word) : (csrWrite c .txStatus v).rxStatus = c.rxStatus := rfl
@[simp] theorem csrWrite_txStatus_txStatus (c : Csr) (v : Word) : (csrWrite c .txStatus v).txStatus = v := BitVec.and_allOnes

end Sys2Proof.Machine
end

