-- ==== Sys2Proof/Laws/Tx.lean ====
section
/-! SUPPORT. Padding, the header's fields, and everything a draw can do. -/

namespace Sys2Proof.Machine

/-- The padding before the guard rounds header and frame up to a multiple of 8 (41_tx_framing.md R165). -/
theorem basePadding_spec (n : Nat) : basePadding n < 8 ∧ (8 + n + basePadding n) % 8 = 0 := by
  unfold basePadding; split <;> omega

/-- The padding is at most 15, the encoded length a multiple of 8, and the flag says whether 8 were added
(41_tx_framing.md R165). -/
theorem paddingFor_spec (n m : Nat) :
    paddingFor n m ≤ 15 ∧ (8 + n + paddingFor n m) % 8 = 0 ∧ (guardFires n m = true ↔ 8 ≤ paddingFor n m) := by
  have h := basePadding_spec n
  unfold paddingFor
  cases hg : guardFires n m <;> simp <;> omega

/-- No encoded length is a multiple of the packet size (41_tx_framing.md R173). -/
theorem paddingFor_noZlp (n m : Nat) (hm : 8 < m) : (8 + n + paddingFor n m) % m ≠ 0 := by
  unfold paddingFor guardFires
  by_cases hg : (n + 8 + basePadding n) % m = 0
  · have h : 8 + n + (basePadding n + 8) = n + 8 + basePadding n + 8 := by omega
    simp only [hg, beq_self_eq_true, if_true, h, Nat.add_mod, Nat.zero_add, Nat.mod_mod]
    rw [Nat.mod_eq_of_lt hm]; omega
  · have h : 8 + n + basePadding n = n + 8 + basePadding n := by omega
    simp [hg, h]

theorem wireBuffer_length (h : DWord) (f : List Byte) (pad : Nat) : (wireBuffer h f pad).length = 8 + f.length + pad := by
  simp [wireBuffer, Nat.add_assoc]

/-- The header and the frame of a wire buffer read back (41_tx_framing.md R168). -/
theorem wireBuffer_header (h : DWord) (f : List Byte) (pad : Nat) : le64 (wireBuffer h f pad) 0 = h := by
  have := le64_stored [] (f ++ zeros pad) h
  simpa [wireBuffer] using this

theorem wireBuffer_frame (h : DWord) (f : List Byte) (pad : Nat) : slice (wireBuffer h f pad) 8 (8 + f.length) = f := by
  rw [wireBuffer, List.append_assoc, slice_append_right _ _ _ _ (by simp), slice_append_left _ _ _ _ (by simp)]
  simp [slice]

/-- Everything a draw can do: it gives an answer, and only the host's answers and the counter of free values change. -/
theorem drawAnswer_frame (d : Draw) (s : State) :
    (drawAnswer d s).2 =
      { s with host := { s.host with answers := (drawAnswer d s).2.host.answers }, free := (drawAnswer d s).2.free } := by
  unfold drawAnswer; split <;> rfl

/-- A resource step leaves everything but the host's answers and the counter of free values (41_tx_framing.md R166, R167). -/
theorem linearizeStep_frame (segs : List (List Byte)) (sg : Bool) (s : State) :
    (linearizeStep segs sg s).2 =
      { s with host := { s.host with answers := (linearizeStep segs sg s).2.host.answers },
               free := (linearizeStep segs sg s).2.free } := by
  unfold linearizeStep; split
  · exact drawAnswer_frame _ _
  · rfl

theorem marginStep_frame (hr tr pad : Nat) (s : State) :
    (marginStep hr tr pad s).2 =
      { s with host := { s.host with answers := (marginStep hr tr pad s).2.host.answers },
               free := (marginStep hr tr pad s).2.free } := by
  unfold marginStep; split
  · exact drawAnswer_frame _ _
  · rfl

/-- Everything a `TXE` within the operand range can do: a command error, a failure for want of a resource, or an encoded
frame, each from a state that differs from `s` in the host's answers and the counter of free values only. -/
theorem txeCommand_cases (v : Bool) (mss tci : BitVec 16) (segs : List (List Byte)) (hr tr : Nat) (s : State) :
    (takeSnapshot s.csr).maxPkt ≤ 8 ∧ txeCommand v mss tci segs hr tr s = raiseCode .badConfig s ∨
    8 < (takeSnapshot s.csr).maxPkt ∧
      (txLenMax s.params.layout < (frameBytes segs).length ∨ txMssMax s.params.layout < mss.toNat) ∧
      txeCommand v mss tci segs hr tr s = raiseCode .badOperand s ∨
    8 < (takeSnapshot s.csr).maxPkt ∧ (frameBytes segs).length ≤ txLenMax s.params.layout ∧
      mss.toNat ≤ txMssMax s.params.layout ∧ ∃ as n, ∃ s1 : State,
        s1 = { s with host := { s.host with answers := as }, free := n } ∧
        ((∃ f, txeCommand v mss tci segs hr tr s = failTransmit f s1) ∨
          txeCommand v mss tci segs hr tr s =
            finishTransmit (txHeader s.params.layout v mss tci (frameBytes segs).length (takeSnapshot s.csr).maxPkt)
              (frameBytes segs) (guardFires (frameBytes segs).length (takeSnapshot s.csr).maxPkt)
              (paddingFor (frameBytes segs).length (takeSnapshot s.csr).maxPkt) s1) := by
  by_cases h1 : (takeSnapshot s.csr).maxPkt ≤ 8
  · left; exact ⟨h1, by simp [txeCommand, h1]⟩
  by_cases h2 : txLenMax s.params.layout < (frameBytes segs).length ∨ txMssMax s.params.layout < mss.toNat
  · right; left; exact ⟨by omega, h2, by simp [txeCommand, h1, h2]⟩
  right; right
  refine ⟨by omega, by omega, by omega, ?_⟩
  simp only [txeCommand, h1, h2, if_false]
  have hl := linearizeStep_frame segs (takeSnapshot s.csr).sgOk s
  rcases hp : linearizeStep segs (takeSnapshot s.csr).sgOk s with ⟨a, s1⟩
  rw [hp] at hl
  cases a with
  | fail => exact ⟨_, _, s1, hl, .inl ⟨.linearize, rfl⟩⟩
  | ok =>
    have hm := marginStep_frame hr tr (paddingFor (frameBytes segs).length (takeSnapshot s.csr).maxPkt) s1
    rcases hq : marginStep hr tr (paddingFor (frameBytes segs).length (takeSnapshot s.csr).maxPkt) s1 with ⟨a, s2⟩
    rw [hq] at hm
    simp only at hm hl
    have h2 : s2 = { s with host := { s.host with answers := s2.host.answers }, free := s2.free } := by
      rw [hm, hl]
    cases a with
    | fail => exact ⟨_, _, s2, h2, .inl ⟨.alloc, by simp only [hq]⟩⟩
    | ok => exact ⟨_, _, s2, h2, .inr (by simp only [hq])⟩

/-- The fields of the header under a usable layout (41_tx_framing.md R163 to R165). -/
theorem txHeader_fields (lay : Layout) (hl : layoutValid lay = true) (v : Bool) (mss tci : BitVec 16) (n m : Nat) :
    getField lay.txhLen (txHeader lay v mss tci n m) = n % 2 ^ 21 ∧
    getField lay.txhMss (txHeader lay v mss tci n m) = mss.toNat % 2 ^ 15 ∧
    getField lay.txhVlan (txHeader lay v mss tci n m) = v.toNat ∧
    getField lay.txhTci (txHeader lay v mss tci n m) = (if v then tci.toNat else 0) ∧
    getField lay.txhDroppad (txHeader lay v mss tci n m) = (guardFires n m).toNat := by
  have u := layoutValid_usable lay hl
  obtain ⟨w1, l1⟩ := u.txhLen
  obtain ⟨w2, l2⟩ := u.txhDroppad
  obtain ⟨w3, l3⟩ := u.txhVlan
  obtain ⟨w4, l4⟩ := u.txhMss
  obtain ⟨w5, l5⟩ := u.txhTci
  have ha := u.headerApart
  simp only [allApart, headerFields, List.all_cons, List.all_nil, Bool.and_true, Bool.and_eq_true] at ha
  obtain ⟨⟨a1, a2, a3, a4⟩, ⟨a5, a6, a7⟩, ⟨a8, a9⟩, a10⟩ := ha
  have ht : tci.toNat < 65536 := tci.isLt
  have same : ∀ (f : Field) (w : DWord) (x k : Nat), f.width = k → f.lo + k ≤ 64 →
      getField f (setField f w x) = x % 2 ^ k := fun f w x k hw hk => by
    rw [getField_setField_same f w x (by omega), hw]
  have apart : ∀ (f g : Field) (w : DWord) (x k : Nat), g.width = k → g.lo + k ≤ 64 →
      (fieldsApart f g = true ∨ fieldsApart g f = true) → getField g (setField f w x) = getField g w :=
    fun f g w x k hw hk h => getField_setField_apart f g w x (by omega) h
  unfold txHeader
  cases v <;> cases guardFires n m <;>
    simp [same lay.txhLen _ _ 21 w1 l1, same lay.txhDroppad _ _ 1 w2 l2, same lay.txhVlan _ _ 1 w3 l3,
      same lay.txhMss _ _ 15 w4 l4, same lay.txhTci _ _ 16 w5 l5, getField_zero, ht,
      apart lay.txhDroppad lay.txhLen _ _ 21 w1 l1 (.inr a1), apart lay.txhVlan lay.txhLen _ _ 21 w1 l1 (.inr a2),
      apart lay.txhMss lay.txhLen _ _ 21 w1 l1 (.inr a3), apart lay.txhTci lay.txhLen _ _ 21 w1 l1 (.inr a4),
      apart lay.txhLen lay.txhDroppad _ _ 1 w2 l2 (.inl a1), apart lay.txhVlan lay.txhDroppad _ _ 1 w2 l2 (.inr a5),
      apart lay.txhMss lay.txhDroppad _ _ 1 w2 l2 (.inr a6), apart lay.txhTci lay.txhDroppad _ _ 1 w2 l2 (.inr a7),
      apart lay.txhLen lay.txhVlan _ _ 1 w3 l3 (.inl a2), apart lay.txhDroppad lay.txhVlan _ _ 1 w3 l3 (.inl a5),
      apart lay.txhMss lay.txhVlan _ _ 1 w3 l3 (.inr a8), apart lay.txhTci lay.txhVlan _ _ 1 w3 l3 (.inr a9),
      apart lay.txhDroppad lay.txhMss _ _ 15 w4 l4 (.inl a6),
      apart lay.txhVlan lay.txhMss _ _ 15 w4 l4 (.inl a8), apart lay.txhTci lay.txhMss _ _ 15 w4 l4 (.inr a10),
      apart lay.txhLen lay.txhTci _ _ 16 w5 l5 (.inl a4), apart lay.txhDroppad lay.txhTci _ _ 16 w5 l5 (.inl a7),
      apart lay.txhMss lay.txhTci _ _ 16 w5 l5 (.inl a10)]

end Sys2Proof.Machine
end

