-- ==== Sys2Proof/Laws/Exec.lean ====
section
/-! SUPPORT. Everything each command and one step can do, said once. -/

namespace Sys2Proof.Machine

/-! ## The register file -/

/-- An index is defined exactly when it is some register's (10_state.md R30). -/
theorem csrOfIndex_eq_some (i : BitVec 8) (r : CsrName) : csrOfIndex i = some r ↔ i = csrIndex r := by
  unfold csrOfIndex
  constructor
  · intro h
    repeat' split at h
    all_goals first | (obtain rfl := Option.some.inj h; simpa [csrIndex]) | simp at h
  · rintro rfl; cases r <;> rfl

theorem csrOfIndex_eq_none (i : BitVec 8) :
    csrOfIndex i = none ↔ i ∉ ([0x00, 0x01, 0x02, 0x03, 0x08, 0x09] : List (BitVec 8)) := by
  unfold csrOfIndex
  repeat' split
  all_goals simp_all

/-- A configuration register's field is the same read through its mask or from the word (10_state.md R24). -/
theorem takeSnapshot_eq (s : State) :
    takeSnapshot s.csr = { maxLen := cfgMaxLen s, csumEn := cfgCsumEn s, maxPkt := cfgMaxPkt s, sgOk := cfgSgOk s } := by
  have h16 : ∀ w : Word, (w &&& 0x0000FFFF).extractLsb' 0 16 = w.extractLsb' 0 16 := fun w => by
    ext k hk
    have h : (65535#32).getLsbD k = true := by
      have : ∀ j : Fin 16, (65535#32).getLsbD j.val = true := by decide
      exact this ⟨k, hk⟩
    simp
    exact fun _ => h
  have h1 : ∀ w : Word, (w &&& 0x00000001).getLsbD 0 = w.getLsbD 0 := fun w => by simp
  simp only [takeSnapshot, csrRead, csrWord, csrMask, h16, h1, cfgMaxLen, cfgCsumEn, cfgMaxPkt, cfgSgOk]

/-! ## What each ending writes, as one record update -/

theorem writeRxStatus_eq (v : Word) (s : State) : writeRxStatus v s = { s with csr := { s.csr with rxStatus := v } } := by
  conv_rhs => rw [← csrWrite_rxStatus_rxStatus s.csr v]
  rfl

theorem writeTxStatus_eq (v : Word) (s : State) : writeTxStatus v s = { s with csr := { s.csr with txStatus := v } } := by
  conv_rhs => rw [← csrWrite_txStatus_txStatus s.csr v]
  rfl

/-- A discard (40_rx_reassembly.md R122). -/
theorem discardTransfer_eq (r : Reason) (s : State) :
    discardTransfer r s =
      { s with csr := { s.csr with rxStatus := rxStatusWord (reasonBits r) true true 0 0 }, rsp := ⟨6, 0⟩ } := by
  rw [discardTransfer, writeRxStatus_eq]; rfl

/-- A delivery (40_rx_reassembly.md R128 to R130). -/
theorem deliverTransfer_eq (c : Snapshot) (b : List Byte) (slots : List Slot) (s : State) :
    deliverTransfer c b slots s =
      { s with
        fs := s.fs ++ deliveredFrames s.params c b slots
        csr := { s.csr with
          rxStatus := rxStatusWord 0 false true (deliveredFrames s.params c b slots).length
            (slots.length - (deliveredFrames s.params c b slots).length) }
        rsp := ⟨0, BitVec.ofNat 32 (deliveredFrames s.params c b slots).length⟩ } := by
  simp only [deliverTransfer, writeRxStatus_eq]; rfl

/-- A failed transmission (41_tx_framing.md R166, R167). -/
theorem failTransmit_eq (f : TxFailure) (s : State) :
    failTransmit f s =
      { s with
        csr := { s.csr with txStatus := txStatusWord true true (failBits f) false 0 0 }
        rsp := ⟨codeBits (failCode f), 0⟩ } := by
  rw [failTransmit, writeTxStatus_eq]; rfl

/-- An encoded frame (41_tx_framing.md R168 to R170). -/
theorem finishTransmit_eq (h : DWord) (f : List Byte) (drop : Bool) (pad : Nat) (s : State) :
    finishTransmit h f drop pad s =
      { s with
        wo := s.wo ++ [wireBuffer h f pad]
        csr := { s.csr with txStatus := txStatusWord true false 0 drop pad (8 + f.length + pad) }
        rsp := ⟨0, BitVec.ofNat 32 (8 + f.length + pad)⟩ } := by
  simp only [finishTransmit, writeTxStatus_eq]; rfl

/-! ## `RXD` -/

/-- When `RXD` completes, and with what (40_rx_reassembly.md R110, 60_exceptions.md R255). -/
theorem exec_rxd_next_iff (b : List Byte) (s t : State) :
    exec (.rxd b) s = .next t ↔
      b.length < 2 ^ 32 ∧ layoutValid s.params.layout = true ∧ t = rxdCommand b (holdTransfer b s) := by
  have hx : Config.xferMax = 2 ^ 32 := rfl
  simp only [exec, execRxd]
  by_cases h1 : Config.xferMax ≤ b.length
  · rw [if_pos h1]; simp only [reduceCtorEq, false_iff]; omega
  · rw [if_neg h1]
    by_cases h2 : layoutValid s.params.layout = true
    · rw [if_pos h2]; simp only [Host.Outcome.next.injEq, h2, true_and]
      exact ⟨fun h => ⟨by omega, h.symm⟩, fun h => h.2.symm⟩
    · rw [if_neg h2]; simp [h2]

/-- Everything an `RXD` within the operand range can do: a configuration error, a discard, or a delivery. -/
theorem rxdCommand_cases (b : List Byte) (s : State) :
    cfgMaxLen s = 0 ∧ rxdCommand b s = raiseCode .badConfig s ∨
    cfgMaxLen s ≠ 0 ∧ (∃ r, validateTransfer s.params.layout b = .error r ∧ rxdCommand b s = discardTransfer r s) ∨
    cfgMaxLen s ≠ 0 ∧ transferConsistent s.params.layout b ∧
      validateTransfer s.params.layout b = .ok (slotsOf (transferDescs s.params.layout b)) ∧
      rxdCommand b s = deliverTransfer (takeSnapshot s.csr) b (slotsOf (transferDescs s.params.layout b)) s := by
  simp only [rxdCommand, takeSnapshot_eq]
  by_cases h0 : cfgMaxLen s = 0
  · left; simp [h0]
  right
  rcases hv : validateTransfer s.params.layout b with r | slots
  · left; exact ⟨h0, r, rfl, by simp [h0]⟩
  · right
    obtain ⟨h1, h2, h3, h4, rfl⟩ := (validateTransfer_ok_iff _ _ _).mp hv
    exact ⟨h0, ⟨h1, h2, h3, h4⟩, rfl, by simp [h0, transferDescs]⟩

/-- A transfer passes every framing check exactly when it is consistent (40_rx_reassembly.md R111). -/
theorem validateTransfer_ok_iff_consistent (lay : Layout) (b : List Byte) :
    (∃ slots, validateTransfer lay b = .ok slots) ↔ transferConsistent lay b := by
  constructor
  · rintro ⟨slots, h⟩
    obtain ⟨h1, h2, h3, h4, -⟩ := (validateTransfer_ok_iff _ _ _).mp h
    exact ⟨h1, h2, h3, h4⟩
  · rintro ⟨h1, h2, h3, h4⟩
    exact ⟨_, (validateTransfer_ok_iff _ _ _).mpr ⟨h1, h2, h3, h4, rfl⟩⟩

/-- The accept test in words (40_rx_reassembly.md R124). -/
theorem accepts_iff (p : Params) (maxLen : Nat) (d : Desc) :
    accepts p maxLen d = true ↔
      d.drop = false ∧ d.rxok = true ∧ ¬ (p.skipCsumErr = true ∧ (d.l3err = true ∨ d.l4err = true))
        ∧ d.len ≤ maxLen + p.rxHwPad ∧ p.rxHwPad ≤ d.len := by
  unfold accepts
  cases d.drop <;> cases d.rxok <;> cases p.skipCsumErr <;> cases d.l3err <;> cases d.l4err <;> simp

/-- The checksum status in words (40_rx_reassembly.md R126). -/
theorem csumOf_eq (csumEn : Bool) (d : Desc) :
    csumOf csumEn d = if csumEn = true ∧ d.l3err = false ∧ d.l4err = false ∧ (d.l4t = .tcp ∨ d.l4t = .udp)
      then .verifiedGood else .unverified := by
  unfold csumOf
  cases csumEn <;> cases d.l3err <;> cases d.l4err <;> cases d.l4t <;> simp

/-- The frames the engine delivers are those of the accept test, the extraction, the status and the tag of each descriptor
(40_rx_reassembly.md R123 to R128). -/
theorem deliveredFrames_eq (s : State) (b : List Byte) (ds : List Desc) :
    deliveredFrames s.params (takeSnapshot s.csr) b (slotsOf ds) =
      (List.range ds.length).filterMap (frameAt s b ds) := by
  have h : slotsOf ds = (List.range ds.length).filterMap fun i => (ds[i]?).map fun d => ⟨consumedUpTo ds i, d⟩ := by
    rw [List.filterMap_congr (g := fun i => some (⟨consumedUpTo ds i, ds.getD i default⟩ : Slot))]
    · refine List.ext_getElem (by simp) fun i h1 h2 => ?_
      simp only [slotsOf_length] at h1
      simp [slotsOf, h1]
    · intro i hi
      have := List.mem_range.mp hi
      simp [this]
  rw [deliveredFrames, h, List.filter_filterMap, List.map_filterMap]
  refine List.filterMap_congr fun i _ => ?_
  rcases hd : ds[i]? with _ | d
  · simp [frameAt, hd]
  · simp only [hd, Option.map_some, Option.filter_some, frameAt, Option.bind_some, takeSnapshot_eq]
    by_cases ha : accepts s.params (cfgMaxLen s) d = true
    · simp only [ha, if_true, if_pos ((accepts_iff _ _ _).mp ha), Option.map_some, frameOf, csumOf_eq, vlanOf]
    · simp only [ha, if_neg (fun h => ha ((accepts_iff _ _ _).mpr h)), Option.map_none, Bool.false_eq_true, if_false]

/-! ## `TXE` -/

/-- When `TXE` completes, and with what (41_tx_framing.md R160, 60_exceptions.md R255). -/
theorem exec_txe_next_iff (v : Bool) (mss tci : BitVec 16) (segs : List (List Byte)) (hr tr : Nat) (s t : State) :
    exec (.txe v mss tci segs hr tr) s = .next t ↔
      hr < 2 ^ 32 ∧ tr < 2 ^ 32 ∧ layoutValid s.params.layout = true ∧
        t = txeCommand v mss tci segs hr tr (useSegments segs s) := by
  have hx : Config.xferMax = 2 ^ 32 := rfl
  simp only [exec, execTxe]
  by_cases h1 : Config.xferMax ≤ hr ∨ Config.xferMax ≤ tr
  · rw [if_pos h1]; simp only [reduceCtorEq, false_iff]; omega
  · rw [if_neg h1]
    by_cases h2 : layoutValid s.params.layout = true
    · rw [if_pos h2]; simp only [Host.Outcome.next.injEq, h2, true_and]
      exact ⟨fun h => ⟨by omega, by omega, h.symm⟩, fun h => h.2.2.symm⟩
    · rw [if_neg h2]; simp [h2]

/-! ## `CFGW`, `CFGR` -/

/-- Everything a `CFGW` can do (42_control.md R201 to R203). -/
theorem exec_cfgw_cases (i : BitVec 8) (d : Word) (s t : State) (h : exec (.cfgw i d) s = .next t) :
    (csrOfIndex i = none ∧ t = raiseCode .badCsr s) ∨
    (∃ r, i = csrIndex r ∧ csrReadOnly r = true ∧ t = raiseCode .roWrite s) ∨
    (∃ r, i = csrIndex r ∧ csrReadOnly r = false ∧ t = respond .ok 0 { s with csr := csrWrite s.csr r d }) := by
  simp only [exec, execCfgw] at h
  rcases hc : csrOfIndex i with _ | r
  · rw [hc] at h; left; exact ⟨rfl, (Host.Outcome.next.inj h).symm⟩
  · rw [hc] at h
    have hi := (csrOfIndex_eq_some _ _).mp hc
    cases hr : csrReadOnly r
    · right; right; simp only [hr, Bool.false_eq_true, if_false] at h; exact ⟨r, hi, hr, (Host.Outcome.next.inj h).symm⟩
    · right; left; simp only [hr, if_true] at h; exact ⟨r, hi, hr, (Host.Outcome.next.inj h).symm⟩

/-- Everything a `CFGR` can do (42_control.md R205, R206). -/
theorem exec_cfgr_cases (i : BitVec 8) (s t : State) (h : exec (.cfgr i) s = .next t) :
    (csrOfIndex i = none ∧ t = raiseCode .badCsr s) ∨
    (∃ r, i = csrIndex r ∧ t = respond .ok (csrRead s.csr r) s) := by
  simp only [exec, execCfgr] at h
  rcases hc : csrOfIndex i with _ | r
  · rw [hc] at h; left; exact ⟨rfl, (Host.Outcome.next.inj h).symm⟩
  · rw [hc] at h; right; exact ⟨r, (csrOfIndex_eq_some _ _).mp hc, (Host.Outcome.next.inj h).symm⟩

/-! ## The port -/

/-- Everything one step can do (60_exceptions.md R248): nothing, a reset, an illegal word, or one decoded command. -/
theorem step_cases (s t : State) (h : step s = .next t) :
    (s.host.pending = [] ∧ t = s) ∨
    (∃ rest, s.host.pending = .reset :: rest ∧ t = hostReset (setPending rest s)) ∨
    (∃ p rest e, s.host.pending = .command p :: rest ∧ decode p = .error e ∧
      t = completeCommand (illegalCommand (setPending rest s))) ∨
    (∃ p rest i u, s.host.pending = .command p :: rest ∧ decode p = .ok i ∧ exec i (setPending rest s) = .next u ∧
      t = completeCommand u) := by
  simp only [step, portStep] at h
  rcases hp : s.host.pending with _ | ⟨ev, rest⟩
  · rw [hp] at h; exact .inl ⟨rfl, (Host.Outcome.next.inj h).symm⟩
  · rw [hp] at h
    cases ev with
    | reset => exact .inr (.inl ⟨rest, rfl, (Host.Outcome.next.inj h).symm⟩)
    | command p =>
      simp only [runPresented] at h
      rcases hd : decode p with e | i
      · rw [hd] at h; exact .inr (.inr (.inl ⟨p, rest, e, rfl, hd, (Host.Outcome.next.inj h).symm⟩))
      · rw [hd] at h
        simp only at h
        rcases hx : exec i (setPending rest s) with u | f | r
        · rw [hx] at h; exact .inr (.inr (.inr ⟨p, rest, i, u, rfl, hd, hx, (Host.Outcome.next.inj h).symm⟩))
        · exact nomatch f
        · rw [hx] at h; simp [completed] at h

end Sys2Proof.Machine
end

