-- ==== Sys2Proof/Laws/PerInstr.lean ====
section
/-! SUPPORT. A statement about every command as syntax: its encoded word is a word of its own row of spec/opcode_table.json. -/

namespace Sys2Proof.Laws.CommandWord

open Sys2Proof.Machine

/-- The mask of a command's row (30_encoding.md R73). -/
def rowMask : Instr → Word
  | .cfgw _ _ => 0xFFFFF00F
  | .cfgr _ => 0xFFFFF00F
  | .rxd _ => 0xFFFFFFFF
  | .txe _ _ _ _ _ _ => 0xFFFFEFFF

/-- The match value of a command's row (30_encoding.md R72, R73). -/
def rowMatch : Instr → Word
  | .cfgw _ _ => 0x00000001
  | .cfgr _ => 0x00000002
  | .rxd _ => 0x00000003
  | .txe _ _ _ _ _ _ => 0x00000004

/-- The encoded word of a command is a word of its row, and its reserved bits are 0 (30_encoding.md R71 to R73). -/
def Statement (i : Instr) : Prop := (encode i).cw &&& rowMask i = rowMatch i ∧ cwRsv (encode i).cw = 0

theorem cfgw (csr : BitVec 8) (data : Word) : Statement (.cfgw csr data) := by
  obtain ⟨h1, h2, -, h4⟩ := fields_mkCw 0 false csr 1
  refine ⟨?_, h1⟩
  simp only [encode, rowMask, rowMatch, cw_and_csrFree, h1, h2, h4]
  decide

theorem cfgr (csr : BitVec 8) : Statement (.cfgr csr) := by
  obtain ⟨h1, h2, -, h4⟩ := fields_mkCw 0 false csr 2
  refine ⟨?_, h1⟩
  simp only [encode, rowMask, rowMatch, cw_and_csrFree, h1, h2, h4]
  decide

theorem rxd (b : List Byte) : Statement (.rxd b) := by
  simp only [Statement, encode, rowMask, rowMatch]
  decide

theorem txe (v : Bool) (mss tci : BitVec 16) (segs : List (List Byte)) (hr tr : Nat) :
    Statement (.txe v mss tci segs hr tr) := by
  simp only [Statement, encode, rowMask, rowMatch]
  cases v <;> decide

end Sys2Proof.Laws.CommandWord
end

