-- ==== Sys2Proof/Machine/AsmText.lean ====
section
/-! DEFINITION. The textual syntax of 30_encoding.md R86 and R88: from the characters of one line to its term (Machine/Asm.lean).
Numbers are decimal or `0x` hexadecimal, as the spec's examples write them (log 20). -/

namespace Sys2Proof.Machine

/-- A token of a line. -/
inductive Token where
  | word (cs : List Char)
  | num (n : Nat)
  | sym (c : Char)
  deriving DecidableEq, Repr

/-- The braces of a segment list. -/
def openBrace : Char := Char.ofNat 123
def closeBrace : Char := Char.ofNat 125

/-- A digit below `base`. -/
def digitValue (base : Nat) (c : Char) : Option Nat :=
  let v := if 48 ≤ c.toNat ∧ c.toNat ≤ 57 then c.toNat - 48
    else if 65 ≤ c.toNat ∧ c.toNat ≤ 70 then c.toNat - 55
    else if 97 ≤ c.toNat ∧ c.toNat ≤ 102 then c.toNat - 87
    else base
  if v < base then some v else none

/-- The value of digits, the most significant first, after the value `n`. -/
def digitsFrom (base : Nat) : List Char → Nat → Option Nat
  | [], n => some n
  | c :: cs, n => (digitValue base c).bind fun d => digitsFrom base cs (base * n + d)

/-- A run of letters and digits: a number if it reads as one, else a name. -/
def tokenOf (cs : List Char) : Token :=
  let n := match cs with
    | '0' :: 'x' :: c :: rest => digitsFrom 16 (c :: rest) 0
    | _ => digitsFrom 10 cs 0
  match n with
  | some n => .num n
  | none => .word cs

/-- The token of the run read so far, held in reverse. -/
def flush : List Char → List Token
  | [] => []
  | c :: cs => [tokenOf (c :: cs).reverse]

def isNameChar (c : Char) : Bool :=
  decide (48 ≤ c.toNat ∧ c.toNat ≤ 57) || decide (65 ≤ c.toNat ∧ c.toNat ≤ 90) || decide (97 ≤ c.toNat ∧ c.toNat ≤ 122)
    || c == '_'

/-- The tokens of a line; `;` to the end of the line is a comment. None where a character belongs to no token. -/
def lexLine : List Char → List Char → Option (List Token)
  | [], run => some (flush run)
  | c :: cs, run =>
    if isNameChar c then lexLine cs (c :: run)
    else if c = ';' then some (flush run)
    else if c = ' ' ∨ c = '\t' then (lexLine cs []).map fun ts => flush run ++ ts
    else if c ∈ [',', '[', ']', '=', openBrace, closeBrace] then (lexLine cs []).map fun ts => flush run ++ .sym c :: ts
    else none

/-- A number below a bound, as a word of that width. -/
def numOf (w : Nat) (n : Nat) : Option (BitVec w) := if n < 2 ^ w then some (BitVec.ofNat w n) else none

/-- The register names of 30_encoding.md R86. -/
def csrNames : List (List Char × CsrName) :=
  [("RX_MAX_LEN".toList, .rxMaxLen), ("RX_CTRL".toList, .rxCtrl), ("TX_MAX_PKT".toList, .txMaxPkt),
    ("TX_CTRL".toList, .txCtrl), ("RX_STATUS".toList, .rxStatus), ("TX_STATUS".toList, .txStatus)]

/-- `<csr>`. -/
def parseCsr : Token → Option AsmCsr
  | .word cs => (csrNames.lookup cs).map .name
  | .num n => (numOf 8 n).map .number
  | .sym _ => none

/-- The bytes of a list that has a first one, up to its bracket, with a comma between any two (30_encoding.md R86). A list without
commas, as program P4 of 95_test_vectors.md writes one, is no line: the model's choice (log 20). -/
def parseBytes : List Token → Option (List Byte × List Token)
  | .num n :: .sym ',' :: ts => (numOf 8 n).bind fun b => (parseBytes ts).map fun r => (b :: r.1, r.2)
  | .num n :: .sym ']' :: ts => (numOf 8 n).map fun b => ([b], ts)
  | _ => none

/-- `<buffer>`: a byte list or a name. -/
def parseBuffer : List Token → Option (AsmBuffer × List Token)
  | .sym '[' :: .sym ']' :: ts => some (.bytes [], ts)
  | .sym '[' :: ts => (parseBytes ts).map fun r => (.bytes r.1, r.2)
  | .word cs :: ts => some (.named (String.ofList cs), ts)
  | _ => none

/-- The buffers of a segment list up to its brace, at most `fuel` of them. -/
def parseSegments : Nat → List Token → Option (List AsmBuffer × List Token)
  | 0, _ => none
  | fuel + 1, ts =>
    match parseBuffer ts with
    | some (b, .sym c :: rest) =>
      if c = closeBrace then some ([b], rest)
      else if c = ',' then (parseSegments fuel rest).map fun r => (b :: r.1, r.2)
      else none
    | _ => none

/-- `<segs>`: one buffer, or several in braces. -/
def parseSegs (ts : List Token) : Option (List AsmBuffer × List Token) :=
  match ts with
  | .sym c :: rest =>
    if c = openBrace then parseSegments rest.length rest else (parseBuffer ts).map fun r => ([r.1], r.2)
  | _ => (parseBuffer ts).map fun r => ([r.1], r.2)

/-- `, key=<n>`, if it stands next. -/
def parseOption (key : List Char) (ts : List Token) : Option Nat × List Token :=
  match ts with
  | .sym ',' :: .word k :: .sym '=' :: .num n :: rest => if k = key then (some n, rest) else (none, ts)
  | _ => (none, ts)

/-- The options of a `TXE` line after its segments, in the order of 30_encoding.md R86. -/
def parseTxe (segs : List AsmBuffer) (ts : List Token) : Option AsmLine :=
  let (mss, ts) := parseOption "mss".toList ts
  let (vlan, ts) := parseOption "vlan".toList ts
  let (hr, ts) := parseOption "hr".toList ts
  let (tr, ts) := parseOption "tr".toList ts
  if ts ≠ [] then none
  else (mss.bind (numOf 16)).bind fun m =>
    match vlan with
    | none => some (.txe segs m none hr tr)
    | some t => (numOf 16 t).map fun t => .txe segs m (some t) hr tr

/-- The operands of a line whose mnemonic is `m`. -/
def parseOperands (m : List Char) (ts : List Token) : Option AsmLine :=
  if m = "CFGW".toList then
    match ts with
    | [r, .sym ',', .num v] => (parseCsr r).bind fun r => (numOf 32 v).map fun v => .cfgw r v
    | _ => none
  else if m = "CFGR".toList then
    match ts with
    | [r] => (parseCsr r).map .cfgr
    | _ => none
  else if m = "RXD".toList then
    match parseBuffer ts with
    | some (b, []) => some (.rxd b)
    | _ => none
  else if m = "TXE".toList then (parseSegs ts).bind fun r => parseTxe r.1 r.2
  else if m = "CFGINIT".toList then
    match ts with
    | [.num a, .sym ',', .num b, .sym ',', .num c, .sym ',', .num d] =>
      (numOf 32 a).bind fun a => (numOf 32 b).bind fun b => (numOf 32 c).bind fun c => (numOf 32 d).map fun d =>
        .cfginit a b c d
    | _ => none
  else none

/-- One line of the syntax (30_encoding.md R86, R88). None where it is no line of the syntax. -/
def parseLine (text : List Char) : Option AsmLine :=
  match lexLine text [] with
  | some (.word m :: ts) => parseOperands m ts
  | _ => none

/-- What the host presents for one line of text (30_encoding.md R86 to R88). -/
def assembleText (table : List (String × List Byte)) (text : List Char) : Option (List Presented) :=
  (parseLine text).bind (assemble table)

end Sys2Proof.Machine
end

