-- ==== Sys2Proof/Tests/Slice0.lean ====
section
/-! SUPPORT. Tests, their expected values from spec/95_test_vectors.md and the encoding tables, and for every statement with
hypotheses a witness that meets them together. -/

namespace Sys2Proof.Tests

open Sys2Proof.Machine

/-! ## Helpers -/

/-- The state after `CFGINIT 1514, 1, 512, 0` (95_test_vectors.md, conventions), with these answers to come. -/
def configured (answers : List Answer := []) : State :=
  { State.reset with
    csr := { Csr.reset with rxMaxLen := 1514, txMaxPkt := 512 }
    host := { State.reset.host with answers := answers } }

/-- A state with this stream to run. -/
def running (events : List HostEvent) (s : State) : State := setPending events s

/-- A part of the next state, if there is one. -/
def after {α : Type} (o : Host.Outcome State Fault Refusal) (f : State → α) : Option α :=
  match o with
  | .next s => some (f s)
  | .fault _ => none
  | .refused _ => none

/-- `seq(a, n)` of 95_test_vectors.md. -/
def seqBytes (a n : Nat) : List Byte := (List.range n).map fun k => BitVec.ofNat 8 (a + k)

/-- A transfer from its data area, its descriptors and its trailer word. -/
def transfer (data : List Byte) (descs : List DWord) (trailer : DWord) : List Byte :=
  data ++ (descs.map leBytes64).flatten ++ leBytes64 trailer

/-- RX-01 (95_test_vectors.md). -/
def scenario : List Byte := transfer (seqBytes 0 16) [0x0000000000100800] 0x0000000000020001

/-- A state whose layout is unusable: two fields of the trailer word overlap. -/
def badLayout : State :=
  { State.reset with params := { defaultParams with layout := { defaultLayout with rxtOff := ⟨12, 19⟩ } } }

/-! ## WellFormed -/

theorem test_wellFormed_rejects_long_transfer :
    (Instr.rxd (List.replicate (2 ^ 32) 0)).wellFormed = false := by
  rw [Instr.wellFormed, List.length_replicate]; decide

theorem test_wellFormed_rejects_large_leading_space :
    (Instr.txe false 0 0 [] (2 ^ 32) 0).wellFormed = false := by decide

theorem test_wellFormed_rejects_large_trailing_space :
    (Instr.txe false 0 0 [] 0 (2 ^ 32)).wellFormed = false := by decide

theorem test_wellFormed_accepts :
    (Instr.rxd []).wellFormed = true ∧ (Instr.txe true 0 0 [] (2 ^ 32 - 1) (2 ^ 32 - 1)).wellFormed = true := by decide

/-! ## Decode (30_encoding.md R71 to R75, words written out bit by bit) -/

/-- `RSV` 0, `V` 0, `CSR` 00000010, `OPC` 0001. -/
theorem test_decode_cfgw :
    decode { cw := 0b0000000000000000000_0_00000010_0001, ops := { data := 0x200 } } = .ok (.cfgw 0x02 0x200) := by decide

/-- `RSV` 0, `V` 0, `CSR` 11111111, `OPC` 0010. -/
theorem test_decode_cfgr : decode { cw := 0b0000000000000000000_0_11111111_0010 } = .ok (.cfgr 0xFF) := by decide

/-- `RSV` 0, `V` 0, `CSR` 0, `OPC` 0011. -/
theorem test_decode_rxd :
    decode { cw := 0b0000000000000000000_0_00000000_0011, ops := { buf := [7, 8] } } = .ok (.rxd [7, 8]) := by decide

/-- `RSV` 0, `V` 1, `CSR` 0, `OPC` 0100; `OP0` is the TCI 0x6064 above the segment size 1448. -/
theorem test_decode_txe :
    decode { cw := 0b0000000000000000000_1_00000000_0100,
             ops := { op0 := 0b0110000001100100_0000010110101000, segs := [[1]], hr := 9, tr := 4 } }
      = .ok (.txe true 1448 0x6064 [[1]] 9 4) := by decide

/-- CT-13 to CT-21, and each reason. -/
theorem test_decode_illegal :
    decode { cw := 0x00000000 } = .error .opcode ∧ decode { cw := 0x0000000F } = .error .opcode ∧
    decode { cw := 0x00001001 } = .error .vlanBit ∧ decode { cw := 0x00001003 } = .error .vlanBit ∧
    decode { cw := 0x00000013 } = .error .csrField ∧ decode { cw := 0x00000014 } = .error .csrField ∧
    decode { cw := 0x00002004 } = .error .reservedBits ∧ decode { cw := 0x80000002 } = .error .reservedBits := by decide

theorem test_decodeTableWord :
    decodeTableWord 32 0x00001004 = some (.txe true 0 0 [] 0 0) ∧ decodeTableWord 32 0x00000005 = none := by decide

/-! ## Assembler text (95_test_vectors.md CT-01 and P2) -/

theorem test_text_cfgw :
    assembleText [] "CFGW  TX_MAX_PKT, 512   ; a comment".toList = some [{ cw := 0x21, ops := { data := 0x200 } }] := by
  decide

theorem test_text_txe :
    assembleText [("F60", [0xA0])] "TXE F60, mss=0, vlan=0x6064".toList =
      some [{ cw := 0x1004, ops := { op0 := 0x60640000, segs := [[0xA0]], hr := 8, tr := 16 } }] := by decide

/-! ## One step of each command -/

/-- CT-04. -/
theorem test_cfgw_masks :
    after (exec (.cfgw 0x00 0x12345678) State.reset) (fun s => (s.rsp, s.csr.rxMaxLen)) = some (⟨0, 0⟩, 0x5678) := by decide

/-- CT-08. -/
theorem test_cfgw_readOnly :
    after (exec (.cfgw 0x08 5) State.reset) (fun s => (s.rsp, s.csr)) = some (⟨3, 0⟩, Csr.reset) := by decide

/-- CT-03. -/
theorem test_cfgr_reset : after (exec (.cfgr 0x01) State.reset) State.rsp = some ⟨0, 1⟩ := by decide

/-- CT-11. -/
theorem test_cfgr_undefined : after (exec (.cfgr 0xFF) State.reset) State.rsp = some ⟨2, 0⟩ := by decide

/-- RX-01. -/
theorem test_rxd_scenario :
    after (exec (.rxd scenario) (configured)) (fun s => (s.rsp, s.csr.rxStatus, s.fs))
      = some (⟨0, 1⟩, 0x00000060, [⟨seqBytes 2 14, .unverified, none⟩]) := by decide

/-- RX-25: not even the first two frames. -/
theorem test_rxd_overrun :
    after (exec (.rxd (transfer (seqBytes 0 24) [0x0000000000080800, 0x0000000000080800, 0x0000000000090800]
        0x0000000000030003)) (configured)) (fun s => (s.rsp, s.csr.rxStatus, s.fs))
      = some (⟨6, 0⟩, 0x00000035, []) := by decide

/-- TX-24, with `LIN = ok`. -/
theorem test_txe_two_segments :
    after (exec (.txe false 0 0 [[1, 2, 3], [4, 5]] 8 16) (configured [.ok])) (fun s => (s.rsp, s.csr.txStatus, s.wo))
      = some (⟨0, 16⟩, 0x00002061, [[5, 0, 0, 0, 0, 0, 0, 0, 1, 2, 3, 4, 5, 0, 0, 0]]) := by decide

/-- TX-20: the guard with a packet size of 12. -/
theorem test_txe_guard :
    after (exec (.txe false 0 0 [seqBytes 0xA0 16] 8 16)
        { configured with csr := { configured.csr with txMaxPkt := 12 } }) (fun s => (s.rsp, s.csr.txStatus, s.wo))
      = some (⟨0, 32⟩, 0x00004111, [[0x10, 0, 0, 0x10, 0, 0, 0, 0] ++ seqBytes 0xA0 16 ++ zeros 8]) := by decide

/-- CT-14 through the port: an illegal word, then the index of the stream. -/
theorem test_step_illegal :
    after (step (running [.command { cw := 0x00000005 }] State.reset)) (fun s => (s.rsp, s.position, s.host.pending))
      = some (⟨1, 0⟩, 1, []) := by decide

/-- CT-01 as the first command after reset. -/
theorem test_step_withFetchWord :
    after (step (State.reset.withFetchWord 32 0x00000021)) (fun s => (s.rsp, s.position)) = some (⟨0, 0⟩, 1) := by decide

/-! ## Witnesses: encoding -/

theorem witness_DecodeEncodeAgree : decode { cw := 0x00000FF2 } = .ok (.cfgr 0xFF) := by decide

theorem witness_LegalWordsAreTheTableRows :
    (0x00002001 : Word).toNat / 2 ^ 13 ≠ 0 ∧
    ((0x00001003 : Word).getLsbD 12 = true ∧ (0x00001003 : Word).toNat % 16 ≠ 4) ∧
    ((0x00000FF3 : Word).toNat / 16 % 256 ≠ 0 ∧ (0x00000FF3 : Word).toNat % 16 = 3) ∧
    ((0x00000014 : Word).toNat / 16 % 256 ≠ 0 ∧ (0x00000014 : Word).toNat % 16 = 4) := by decide

/-- One word for each clause, and for the last one a word of each of its three reasons. -/
theorem witness_DecodeFollowsTheProcedure :
    (0xFFFFFFFF : Word).toNat = 524287 * 2 ^ 13 + 1 * 2 ^ 12 + 255 * 2 ^ 4 + 15 ∧
    (0x00000FF1 : Word).toNat = 0 * 2 ^ 13 + 0 * 2 ^ 12 + 255 * 2 ^ 4 + 1 ∧
    (0x00000002 : Word).toNat = 0 * 2 ^ 13 + 0 * 2 ^ 12 + 0 * 2 ^ 4 + 2 ∧
    (0x00000003 : Word).toNat = 0 * 2 ^ 13 + 0 * 2 ^ 12 + 0 * 2 ^ 4 + 3 ∧
    (0x00001004 : Word).toNat = 0 * 2 ^ 13 + 1 * 2 ^ 12 + 0 * 2 ^ 4 + 4 ∧
    (0x00001002 : Word).toNat = 0 * 2 ^ 13 + 1 * 2 ^ 12 + 0 * 2 ^ 4 + 2 ∧
    (0x00000013 : Word).toNat = 0 * 2 ^ 13 + 0 * 2 ^ 12 + 1 * 2 ^ 4 + 3 ∧
    (0x0000000F : Word).toNat = 0 * 2 ^ 13 + 0 * 2 ^ 12 + 0 * 2 ^ 4 + 15 := by decide

/-- A register by its name and by a number, a named buffer, two segments of both forms, margins present and absent. -/
theorem witness_SyntaxIsEncodedAsStated :
    let table : List (String × List Byte) := [("buf", [1, 2])]
    (AsmCsr.number 0xFF = .number 0xFF) ∧
    (AsmCsr.name .txStatus, (0x09 : BitVec 8)) ∈ ([(.name .rxMaxLen, 0x00), (.name .rxCtrl, 0x01),
      (.name .txMaxPkt, 0x02), (.name .txCtrl, 0x03), (.name .rxStatus, 0x08), (.name .txStatus, 0x09)] :
      List (AsmCsr × BitVec 8)) ∧
    (∃ label, AsmBuffer.named "buf" = .named label ∧ table.lookup label = some [1, 2]) ∧
    List.Forall₂ (fun x b => x = .bytes b ∨ ∃ label, x = .named label ∧ table.lookup label = some b)
      [AsmBuffer.named "buf", .bytes [3]] [[1, 2], [3]] ∧
    ((none : Option Nat) = some 8 ∨ (none : Option Nat) = none ∧ 8 = 8) ∧
    (some 4 = some 4 ∨ (some 4 : Option Nat) = none ∧ 4 = 16) :=
  ⟨rfl, by decide, ⟨"buf", rfl, by decide⟩, .cons (.inr ⟨"buf", rfl, by decide⟩) (.cons (.inl rfl) .nil), .inr ⟨rfl, rfl⟩,
    .inl rfl⟩

/-! ## Witnesses: steps, the port, reset -/

theorem witness_StepRunsTheDecodedCommand :
    (running [.command { cw := 0x12 }, .reset] State.reset).host.pending = .command { cw := 0x12 } :: [.reset] ∧
    decode { cw := 0x12 } = .ok (.cfgr 0x01) ∧ (∃ t, exec (.cfgr 0x01) (running [.reset] State.reset) = .next t) ∧
    decode { cw := 0x3 } = .ok (.rxd []) ∧ (∃ r, exec (.rxd []) (running [] badLayout) = .refused r) :=
  ⟨rfl, by decide, ⟨_, rfl⟩, by decide, ⟨.layoutUnusable, rfl⟩⟩

theorem witness_IllegalWordAnswersIllegalCmd :
    (running [.command { cw := 0x1001 }] State.reset).host.pending = .command { cw := 0x1001 } :: [] ∧
    ¬ ∃ i, decode { cw := 0x1001 } = .ok i := by
  have h : decode { cw := 0x1001 } = .error .vlanBit := by decide
  exact ⟨rfl, fun ⟨i, hi⟩ => by rw [h] at hi; simp at hi⟩

theorem witness_HostResetRestoresTheBlock :
    (running [.reset, .reset] (configured)).host.pending = .reset :: [.reset] := rfl

theorem witness_EnginesNeedConfigurationAfterReset :
    State.reset.csr = State.reset.csr ∧ layoutValid State.reset.params.layout = true ∧
      ([] : List Byte).length < 2 ^ 32 ∧ 2 ^ 32 - 1 < 2 ^ 32 := by decide

theorem witness_NothingPendingNothingChanges : State.reset.host.pending = [] := rfl

theorem witness_EveryPresentedCommandCompletes :
    (running [.command { cw := 0x1004, ops := { hr := 2 ^ 32 - 1 } }] State.reset).host.pending =
      .command { cw := 0x1004, ops := { hr := 2 ^ 32 - 1 } } :: [] ∧
    layoutValid State.reset.params.layout = true ∧ ([] : List Byte).length < 2 ^ 32 ∧ 2 ^ 32 - 1 < 2 ^ 32 ∧ 0 < 2 ^ 32 := by
  decide

theorem witness_RefusalsAreTheListedOperands :
    2 ^ 32 ≤ (List.replicate (2 ^ 32) (0 : Byte)).length ∧ 2 ^ 32 ≤ 2 ^ 32 ∧
    layoutValid badLayout.params.layout = false ∧ ([] : List Byte).length < 2 ^ 32 ∧
    (∃ r, exec (.txe false 0 0 [] 0 0) badLayout = .refused r) :=
  ⟨by rw [List.length_replicate], Nat.le_refl _, by decide, by decide, ⟨.layoutUnusable, rfl⟩⟩

theorem witness_UsableLayoutMeansNoSharedBit :
    layoutValid defaultLayout = true ∧ layoutValid badLayout.params.layout = false := by decide

/-- A command error, a discard and each resource failure. -/
theorem witness_ErrorsMakeNoPartialOutput :
    after (step (running [.command { cw := 0x5 }] State.reset)) (fun s => s.rsp.code) = some 1 ∧
    after (step (running [.command { cw := 0x4, ops := { op0 := 0x8000 } }] (configured))) (fun s => s.rsp.code) = some 5 ∧
    after (step (running [.command { cw := 0x3 }] (configured))) (fun s => s.rsp.code) = some 6 ∧
    after (step (running [.command { cw := 0x4, ops := { segs := [[], []] } }] (configured [.fail]))) (fun s => s.rsp.code)
      = some 7 ∧
    after (step (running [.command { cw := 0x4, ops := { hr := 7 } }] (configured [.fail]))) (fun s => s.rsp.code)
      = some 8 := by decide

theorem witness_StreamsOnlyGrow :
    (∃ t, step (running [.command { cw := 0x3, ops := { buf := scenario } }] (configured)) = .next t) ∧
    ∀ rest, (running [.command { cw := 0x3, ops := { buf := scenario } }] (configured)).host.pending ≠ .reset :: rest :=
  ⟨⟨_, rfl⟩, fun rest h => by simp [running, setPending] at h⟩

theorem configured_good : (configured [.fail]).Good :=
  ⟨by unfold reservedClear; decide, .inl rfl, .inl rfl, by simp [responseLegal, configured, State.reset],
    by simp [configured, State.reset], by simp [configured, State.reset]⟩

theorem witness_EveryStepKeepsGood :
    (running [.command { cw := 0x4, ops := { hr := 7 } }] (configured [.fail])).Good ∧
      ∃ t, step (running [.command { cw := 0x4, ops := { hr := 7 } }] (configured [.fail])) = .next t :=
  ⟨⟨configured_good.1, configured_good.2, configured_good.3, configured_good.4, configured_good.5, configured_good.6⟩,
    _, rfl⟩

/-! ## Witnesses: control commands -/

theorem witness_CfgwIsSeenByTheNextSnapshot : ∃ t, exec (.cfgw 0x00 0xFFFFFFFF) State.reset = .next t := ⟨_, rfl⟩

theorem witness_CfgwOfAStatusRegisterRaisesRoWrite : (0x08 : BitVec 8) = 0x08 ∨ (0x08 : BitVec 8) = 0x09 := by decide

/-- The bounds of the undefined ranges (42_control.md R207). -/
theorem witness_UndefinedIndexRaisesBadCsr :
    ∀ i ∈ ([0x04, 0x07, 0x0A, 0xFF] : List (BitVec 8)), i ∉ ([0x00, 0x01, 0x02, 0x03, 0x08, 0x09] : List (BitVec 8)) := by
  decide

theorem witness_ReadAfterWriteOfARegister :
    ∃ t u u0, exec (.cfgw 0x02 0xFFFFFFFF) State.reset = .next t ∧ t.rsp.code = 0 ∧ exec (.cfgr 0x02) t = .next u ∧
      exec (.cfgr 0x02) State.reset = .next u0 ∧ u.rsp = ⟨0, 0x0000FFFF⟩ ∧ u0.rsp = ⟨0, 0⟩ :=
  ⟨_, _, _, rfl, rfl, rfl, rfl, by decide, by decide⟩

theorem witness_ControlCommandsFrame :
    (∃ t, exec (.cfgw 0x03 1) State.reset = .next t) ∧ ∃ t, exec (.cfgr 0x09) State.reset = .next t := ⟨⟨_, rfl⟩, _, rfl⟩

/-! ## Witnesses: RXD -/

/-- The configuration check at 0, and the length check at 7 bytes. -/
theorem witness_RxdEntryChecks :
    layoutValid State.reset.params.layout = true ∧ scenario.length < 2 ^ 32 ∧ cfgMaxLen State.reset = 0 ∧
    layoutValid configured.params.layout = true ∧ cfgMaxLen (configured) ≠ 0 ∧ (zeros 7).length < 8 := by decide

/-- RX-06 for the first clause, RX-04 (8 bytes) for the second. -/
theorem witness_RxdOffsetAndCountChecks :
    let b := transfer (seqBytes 0 16) [0x0000000000100800] 0x0000000000010001
    (layoutValid configured.params.layout = true ∧ b.length < 2 ^ 32 ∧ cfgMaxLen (configured) ≠ 0 ∧ 8 ≤ b.length ∧
      1 = packetCount defaultLayout (le64 b (b.length - 8)) ∧ 8 = trailerOffset defaultLayout (le64 b (b.length - 8)) ∧
      8 ≠ b.length - 8 * (1 + 1)) ∧
    (8 ≤ (zeros 8).length ∧ 0 = packetCount defaultLayout (le64 (zeros 8) ((zeros 8).length - 8)) ∧
      0 = trailerOffset defaultLayout (le64 (zeros 8) ((zeros 8).length - 8)) ∧
      8 * (0 + 1) ≤ (zeros 8).length ∧ 0 = (zeros 8).length - 8 * (0 + 1)) := by decide

/-- RX-09 for the overrun, RX-08 for the sum. -/
theorem witness_RxdOverrunAndSumChecks :
    let b := transfer (seqBytes 0 16) [0x0000000000110800] 0x0000000000020001
    let c := transfer (seqBytes 0 16) [0x0000000000080800] 0x0000000000020001
    let ds := fun b => (List.range 1).map (fun i => decodeDesc defaultLayout (le64 b (16 + 8 * i)))
    (layoutValid configured.params.layout = true ∧ cfgMaxLen (configured) ≠ 0 ∧ 0 < 1) ∧
    (b.length < 2 ^ 32 ∧ 8 ≤ b.length ∧ 1 = packetCount defaultLayout (le64 b (b.length - 8)) ∧
      16 = trailerOffset defaultLayout (le64 b (b.length - 8)) ∧ b.length = 16 + 8 * (1 + 1) ∧
      ∃ i < 1, 16 < consumedUpTo (ds b) (i + 1)) ∧
    (c.length < 2 ^ 32 ∧ 8 ≤ c.length ∧ 1 = packetCount defaultLayout (le64 c (c.length - 8)) ∧
      16 = trailerOffset defaultLayout (le64 c (c.length - 8)) ∧ c.length = 16 + 8 * (1 + 1) ∧
      (∀ i < 1, consumedUpTo (ds c) (i + 1) ≤ 16) ∧ consumedUpTo (ds c) 1 ≠ 16) := by decide

theorem scenario_consistent : transferConsistent defaultLayout scenario := by
  refine ⟨by decide, by decide, by decide, by decide⟩

theorem witness_RxdDeliversTheAcceptedFrames :
    layoutValid configured.params.layout = true ∧ scenario.length < 2 ^ 32 ∧ cfgMaxLen (configured) ≠ 0 ∧
      transferConsistent configured.params.layout scenario ∧ 1 = packetCount defaultLayout (trailerWord scenario) ∧
      (List.range 1).filterMap (frameAt (configured) scenario (transferDescs defaultLayout scenario))
        = [⟨seqBytes 2 14, .unverified, none⟩] :=
  ⟨by decide, by decide, by decide, scenario_consistent, by decide, by decide⟩

theorem witness_RxdIsAllOrNothing :
    cfgMaxLen (configured) ≠ 0 ∧ (∃ t, exec (.rxd scenario) (configured) = .next t) ∧
      (∃ t, exec (.rxd []) (configured) = .next t) ∧ ¬ transferConsistent configured.params.layout [] :=
  ⟨by decide, ⟨_, rfl⟩, ⟨_, rfl⟩, fun h => absurd h.1 (by decide)⟩

theorem witness_RxdFramePropertiesOfTheSource :
    after (exec (.rxd scenario) (configured)) (fun t => t.fs.length) = some 1 ∧ configured.params.skipCsumErr = true ∧
      cfgCsumEn (configured) = true := by decide

/-- RX-09, which passes the offset check and overruns, for the descriptors; RX-08, which ends in a sum mismatch, and RX-01 for the
slots and a frame. -/
theorem witness_RxdReadsStayInBounds :
    let b := transfer (seqBytes 0 16) [0x0000000000110800] 0x0000000000020001
    let c := transfer (seqBytes 0 16) [0x0000000000080800] 0x0000000000020001
    (8 ≤ b.length ∧ 1 = packetCount defaultLayout (trailerWord b) ∧ 16 = trailerOffset defaultLayout (trailerWord b) ∧
      b.length = 16 + 8 * (1 + 1) ∧ ¬ consumedUpTo (transferDescs defaultLayout b) 1 ≤ 16) ∧
    (8 ≤ c.length ∧ 1 = packetCount defaultLayout (trailerWord c) ∧ 16 = trailerOffset defaultLayout (trailerWord c) ∧
      c.length = 16 + 8 * (1 + 1) ∧ (∀ i < 1, consumedUpTo (transferDescs defaultLayout c) (i + 1) ≤ 16) ∧
      consumedUpTo (transferDescs defaultLayout c) 1 ≠ 16 ∧ 0 < (transferDescs defaultLayout c).length) ∧
    (frameAt (configured) scenario (transferDescs defaultLayout scenario) 0).isSome = true := by decide

theorem witness_OffsetRangeIsUnreachable :
    after (exec (.rxd scenario) (configured)) (fun t => t.rsp.code) = some 0 := by decide

/-- The shortest overlong transfer; 7 bytes; RX-24 (33 bytes, one descriptor); 9 bytes without a descriptor whose offset is 1, and
9 zero bytes, whose offset is 0. -/
theorem witness_OddAndOverlongTransfersAreDiscarded :
    let c := transfer (seqBytes 0 17) [0x0000000000100800] 0x0000000000022001
    let d := transfer [0] [] 0x0000000000002000
    layoutValid configured.params.layout = true ∧ cfgMaxLen (configured) ≠ 0 ∧
      (List.replicate 589824 (0 : Byte)).length < 2 ^ 32 ∧ 589823 < (List.replicate 589824 (0 : Byte)).length ∧
      ((zeros 7).length < 2 ^ 32 ∧ (zeros 7).length % 8 ≠ 0 ∧ (zeros 7).length < 8) ∧
      (c.length < 2 ^ 32 ∧ c.length % 8 ≠ 0 ∧ 8 ≤ c.length ∧ packetCount defaultLayout (trailerWord c) ≠ 0) ∧
      (d.length < 2 ^ 32 ∧ d.length % 8 ≠ 0 ∧ 8 ≤ d.length ∧ packetCount defaultLayout (trailerWord d) = 0 ∧
        trailerOffset defaultLayout (trailerWord d) = d.length - 8) ∧
      ((zeros 9).length % 8 ≠ 0 ∧ 8 ≤ (zeros 9).length ∧ packetCount defaultLayout (trailerWord (zeros 9)) = 0 ∧
        trailerOffset defaultLayout (trailerWord (zeros 9)) ≠ (zeros 9).length - 8) := by
  refine ⟨by decide, by decide, ?_, ?_, by decide, by decide, by decide, by decide⟩ <;> rw [List.length_replicate] <;> decide

/-- RX-01 and RX-29. -/
theorem witness_UnusedWireBitsChangeNothing :
    layoutValid configured.params.layout = true ∧ (seqBytes 0 16).length + 8 * (1 + 1) < 2 ^ 32 ∧
      (∀ f ∈ descFields defaultLayout, getField f 0x0000000000100800 = getField f 0xFFFFF0000010FBE0) ∧
      (∀ f ∈ trailerFields defaultLayout, getField f 0x0000000000020001 = getField f 0xFFFFFFFF00020001) ∧
      packetCount defaultLayout 0x0000000000020001 = 1 := by decide

theorem witness_RxdFrame : ∃ t, exec (.rxd scenario) (configured) = .next t := ⟨_, rfl⟩

/-! ## Witnesses: TXE -/

theorem witness_TxeConfigurationCheck :
    layoutValid configured.params.layout = true ∧ 2 ^ 32 - 1 < 2 ^ 32 ∧ 0 < 2 ^ 32 ∧
      cfgMaxPkt { configured with csr := { configured.csr with txMaxPkt := 8 } } ≤ 8 := by decide

/-- TX-13 and TX-14. -/
theorem witness_TxeOperandCheck :
    layoutValid configured.params.layout = true ∧ 8 < 2 ^ 32 ∧ 16 < 2 ^ 32 ∧ 8 < cfgMaxPkt (configured) ∧
      2 ^ 21 - 1 < [List.replicate (2 ^ 21) (0 : Byte)].flatten.length ∧ 2 ^ 15 - 1 < (0x8000 : BitVec 16).toNat := by
  refine ⟨by decide, by decide, by decide, by decide, ?_, by decide⟩
  rw [List.flatten_singleton, List.length_replicate]; decide

theorem witness_PaddingRangeAndGuard : 8 < 9 ∧ 0 < 8 ∧ (8 + 504 + 0) % 8 = 0 := by decide

/-- TX-24 with both draws, and TX-20, at which the guard fires and no draw is made. -/
theorem witness_TxeEncodesTheFrame :
    (layoutValid (configured [.ok, .ok, .fail]).params.layout = true ∧ 7 < 2 ^ 32 ∧ 16 < 2 ^ 32 ∧
      8 < cfgMaxPkt (configured [.ok, .ok, .fail]) ∧ 5 = [[(1 : Byte), 2, 3], [4, 5]].flatten.length ∧ 5 < 2 ^ 21 ∧
      (0x7FFF : BitVec 16).toNat < 2 ^ 15 ∧ 5 = (5 + 8) % 8 ∧ 3 = (if 5 ≠ 0 then 8 - 5 else 0) ∧
      3 = (if (5 + 8 + 3) % cfgMaxPkt (configured) = 0 then 3 + 8 else 3) ∧
      0 = (if (5 + 8 + 3) % cfgMaxPkt (configured) = 0 then 1 else 0) ∧
      (configured [.ok, .ok, .fail]).host.answers =
        List.replicate (drawsNeeded [[1, 2, 3], [4, 5]] (cfgSgOk (configured)) 7 16 3) Answer.ok ++ [.fail]) ∧
    (8 < cfgMaxPkt { configured with csr := { configured.csr with txMaxPkt := 12 } } ∧
      16 = [seqBytes 0xA0 16].flatten.length ∧ 0 = (16 + 8) % 8 ∧ 0 = (if 0 ≠ 0 then 8 - 0 else 0) ∧
      8 = (if (16 + 8 + 0) % cfgMaxPkt { configured with csr := { configured.csr with txMaxPkt := 12 } } = 0 then 0 + 8
        else 0) ∧
      1 = (if (16 + 8 + 0) % cfgMaxPkt { configured with csr := { configured.csr with txMaxPkt := 12 } } = 0 then 1
        else 0) ∧
      (configured).host.answers = List.replicate (drawsNeeded [seqBytes 0xA0 16] false 8 16 8) Answer.ok ++ []) := by
  decide

theorem witness_TxHeaderUnderTheDefaultLayout :
    2 ^ 21 - 1 < 2 ^ 21 ∧ (0x7FFF : BitVec 16).toNat < 2 ^ 15 := by decide

/-- TX-15, in small. -/
theorem witness_TxeLinearizationFailure :
    layoutValid configured.params.layout = true ∧ 8 < 2 ^ 32 ∧ 16 < 2 ^ 32 ∧ 8 < cfgMaxPkt (configured) ∧
      [[(1 : Byte)], [2]].flatten.length < 2 ^ 21 ∧ (0x7FFF : BitVec 16).toNat < 2 ^ 15 ∧
      1 < [[(1 : Byte)], [2]].length ∧ cfgSgOk (configured) = false ∧ (configured [.fail]).host.answers = .fail :: [] := by decide

/-- TX-17 and TX-18, and a frame that first draws `LIN`. -/
theorem witness_TxeAllocationFailure :
    layoutValid configured.params.layout = true ∧ 7 < 2 ^ 32 ∧ 3 < 2 ^ 32 ∧ 8 < cfgMaxPkt (configured) ∧
      (zeros 60).length < 2 ^ 21 ∧ (0x7FFF : BitVec 16).toNat < 2 ^ 15 ∧ 7 < 8 ∧
      3 < paddingFor (zeros 60).length (cfgMaxPkt (configured)) ∧
      (configured [.fail]).host.answers =
        (if 1 < [zeros 60].length ∧ cfgSgOk (configured) = false then [.ok] else []) ++ .fail :: [] ∧
      (configured [.ok, .fail]).host.answers =
        (if 1 < [zeros 30, zeros 30].length ∧ cfgSgOk (configured) = false then [.ok] else []) ++ .fail :: [] := by decide

theorem witness_TxeSendsOrFailsForAResource :
    layoutValid configured.params.layout = true ∧ 0 < 2 ^ 32 ∧ 8 < cfgMaxPkt (configured) ∧
      2 = [[(1 : Byte)], [2]].flatten.length ∧ 2 < 2 ^ 21 ∧ (0x7FFF : BitVec 16).toNat < 2 ^ 15 ∧
      6 = paddingFor 2 (cfgMaxPkt (configured)) ∧
      (configured).host.answers = [] := by decide

theorem witness_TxeOutputDoesNotDependOnResources :
    [[1, 2, 3], [4, 5]].flatten = [[1, 2, 3, 4, 5]].flatten ∧
    after (exec (.txe false 0 0 [[1, 2, 3, 4, 5]] 8 16) (configured)) (fun t => t.rsp.code) = some 0 ∧
    after (exec (.txe false 0 0 [[1, 2, 3], [4, 5]] 0 0) (configured [.ok, .ok])) (fun t => t.rsp.code) = some 0 := by decide

theorem witness_TxeNeverNeedsAZeroLengthPacket :
    ∃ t, exec (.txe false 0 0 [] 8 16) (configured) = .next t ∧ t.rsp.code = 0 := ⟨_, rfl, by decide⟩

theorem witness_TxeFrame : ∃ t, exec (.txe true 0 0 [[1], [2]] 0 0) (configured [.ok, .fail]) = .next t := ⟨_, rfl⟩

/-! ## Witnesses: both engines -/

theorem witness_EnginesAreIndependent :
    ∃ r x rx xr, exec (.rxd scenario) (configured) = .next r ∧ exec (.txe false 0 0 [[1]] 8 16) r = .next rx ∧
      exec (.txe false 0 0 [[1]] 8 16) (configured) = .next x ∧ exec (.rxd scenario) x = .next xr :=
  ⟨_, _, _, _, rfl, rfl, rfl, rfl⟩

/-- A tagged frame of 5 bytes: the descriptor has length 7 and the id 0x064, the trailer offset is 8 (95_test_vectors.md P2, in
small). -/
theorem witness_RoundTripPreservesTheFrame :
    ∃ t x, exec (.txe true 0 0x6064 [[1, 2, 3, 4, 5]] 8 16) (configured) = .next t ∧ t.rsp.code = 0 ∧
      t.wo = configured.wo ++ [x] ∧ 5 = getField defaultLayout.txhLen (le64 x 0) ∧
      decodeDesc defaultLayout 0x0000006400070C00 =
        { len := 5 + 2, drop := false, rxok := true, l3err := false, l4err := false, l4t := .other, vlan := true,
          vid := BitVec.ofNat 12 (getField defaultLayout.txhTci (le64 x 0)) } ∧
      packetCount defaultLayout 0x0000000000010001 = 1 ∧
      trailerOffset defaultLayout 0x0000000000010001 = roundUp8 (5 + 2) ∧ cfgMaxLen t ≠ 0 ∧ 5 ≤ cfgMaxLen t :=
  ⟨_, _, rfl, by decide, rfl, by decide, by decide, by decide, by decide, by decide, by decide⟩

/-! ## Witness: wire words -/

/-- RX-01: the last place at which eight bytes stand is its trailer word, and its descriptor stands before it. -/
theorem witness_WireWordsAreLittleEndian :
    24 + 8 ≤ scenario.length ∧ 8 ≤ scenario.length ∧ 0 < 1 ∧ 16 + 8 * 0 + 8 ≤ scenario.length ∧ 7 < 8 := by decide

/-- 95_test_vectors.md P1: the trailer word of the bytes `01 00 02 00 00 00 00 00`; TX-07: the bytes of a header. -/
theorem test_byte_order :
    le64 [1, 0, 2, 0, 0, 0, 0, 0] 0 = 0x0000000000020001 ∧
    leBytes64 0x606400002000003C = [0x3C, 0, 0, 0x20, 0, 0, 0x64, 0x60] := by decide

end Sys2Proof.Tests
end

section
/-! PROOFS. The reset values of the block's state (10_state.md R38). -/

namespace Sys2Proof.Machine

/-! ## The register file after reset -/

@[simp] theorem Csr.reset_rxMaxLen : Csr.reset.rxMaxLen = 0 := rfl
@[simp] theorem Csr.reset_rxCtrl : Csr.reset.rxCtrl = 1 := rfl
@[simp] theorem Csr.reset_txMaxPkt : Csr.reset.txMaxPkt = 0 := rfl
@[simp] theorem Csr.reset_txCtrl : Csr.reset.txCtrl = 0 := rfl
@[simp] theorem Csr.reset_rxStatus : Csr.reset.rxStatus = 0 := rfl
@[simp] theorem Csr.reset_txStatus : Csr.reset.txStatus = 0 := rfl

/-! ## The block's own parts of the state after reset -/

@[simp] theorem State.reset_csr : State.reset.csr = Csr.reset := rfl
@[simp] theorem State.reset_fs : State.reset.fs = [] := rfl
@[simp] theorem State.reset_wo : State.reset.wo = [] := rfl
@[simp] theorem State.reset_rsp : State.reset.rsp = ⟨0, 0⟩ := rfl

/-- Settles O9: the registers are those of `Csr.reset`, each with its value of R38's table; the streams and the response are
`State.reset`'s own. -/
theorem resetValues : Obligations.ResetValues := by
  unfold Obligations.ResetValues
  rw [State.reset_csr]
  exact ⟨Csr.reset_rxMaxLen, Csr.reset_rxCtrl, Csr.reset_txMaxPkt, Csr.reset_txCtrl, Csr.reset_rxStatus,
    Csr.reset_txStatus, State.reset_fs, State.reset_wo, State.reset_rsp⟩

end Sys2Proof.Machine
end

section
/-! PROOFS. The byte order of the wire words (20_memory.md R53). -/

namespace Sys2Proof.Machine

/-! ## A word as it is read -/

theorem memRead_length (b : List Byte) (a n : Nat) (h : a + n ≤ b.length) : (memRead b a n).length = n := by
  rw [memRead, slice_length b a (a + n) h, Nat.add_sub_cancel_left]

theorem memRead_getD (b : List Byte) (a n k : Nat) (h : k < n) : (memRead b a n).getD k 0 = b.getD (a + k) 0 := by
  rw [memRead, slice, Nat.add_sub_cancel_left, List.getD_eq_getElem?_getD, List.getElem?_take_of_lt h, List.getElem?_drop,
    ← List.getD_eq_getElem?_getD]

theorem leValue_memRead (b : List Byte) (a : Nat) (h : a + 8 ≤ b.length) : leValue (memRead b a 8) = bytesAsNumber b a := by
  rw [leValue_eq_sum, memRead_length b a 8 h, bytesAsNumber]
  congr 1
  refine List.map_congr_left fun k hk => ?_
  rw [memRead_getD b a 8 k (List.mem_range.mp hk)]

/-- The sum of eight bytes fits a wire word, so nothing is cut off when it is read. -/
theorem le64_toNat (b : List Byte) (a : Nat) (h : a + 8 ≤ b.length) : (le64 b a).toNat = bytesAsNumber b a := by
  have hlt : leValue (memRead b a 8) < 2 ^ 64 := by
    simpa [memRead_length b a 8 h] using leValue_lt (memRead b a 8)
  rw [le64, BitVec.toNat_ofNat, Nat.mod_eq_of_lt hlt, leValue_memRead b a h]

theorem le64_eq_ofNat (b : List Byte) (a : Nat) (h : a + 8 ≤ b.length) : le64 b a = BitVec.ofNat 64 (bytesAsNumber b a) := by
  rw [le64, leValue_memRead b a h]

theorem trailerWord_toNat (b : List Byte) (h : 8 ≤ b.length) :
    (trailerWord b).toNat = bytesAsNumber b (b.length - 8) := by
  rw [trailerWord, le64_toNat b _ (Nat.sub_add_cancel h).le]

theorem descriptors_getElem? (lay : Layout) (b : List Byte) (off pc i : Nat) (h : i < pc) :
    (descriptors lay b off pc)[i]? = some (decodeDesc lay (le64 b (off + 8 * i))) := by
  rw [descriptors, List.getElem?_map, List.getElem?_range h, Option.map_some]

/-! ## A word as it is written -/

theorem leBytes64_getElem? (v : DWord) (k : Nat) (h : k < 8) : (leBytes64 v)[k]? = some (v.extractLsb' (8 * k) 8) := by
  rw [leBytes64, List.getElem?_map, List.getElem?_range h, Option.map_some]

theorem wireBuffer_getElem?_header (h : DWord) (f : List Byte) (pad k : Nat) (hk : k < 8) :
    (wireBuffer h f pad)[k]? = (leBytes64 h)[k]? := by
  rw [wireBuffer, List.append_assoc, List.getElem?_append_left (by rwa [leBytes64_length])]

/-- Settles O52: each word is read as the sum of its eight bytes (`le64_toNat`), and the header's bytes are those of
`leBytes64`, which stand first in the wire buffer. -/
theorem wireWordsAreLittleEndian : Obligations.WireWordsAreLittleEndian := by
  unfold Obligations.WireWordsAreLittleEndian
  intro lay b f h pad
  refine ⟨le64_toNat b, trailerWord_toNat b, fun off pc i hi hb => ?_, leBytes64_length h, leBytes64_getElem? h,
    fun k hk => ?_⟩
  case refine_1 => rw [descriptors_getElem? lay b off pc i hi, le64_eq_ofNat b _ hb]
  case refine_2 => rw [wireBuffer_getElem?_header h f pad k hk, leBytes64_getElem? h k hk]

end Sys2Proof.Machine
end

section
/-! PROOFS. The decoder against the rows of the opcode table (30_encoding.md R73) and against the decoding procedure over
numbers (R78). -/

namespace Sys2Proof.Machine

/-! ## The mask and match values of the rows -/

theorem mkCw_inj (r r' : BitVec 19) (v v' : Bool) (c c' : BitVec 8) (o o' : BitVec 4) :
    mkCw r v c o = mkCw r' v' c' o' ↔ r = r' ∧ v = v' ∧ c = c' ∧ o = o' := by
  constructor
  · intro h
    obtain ⟨hr, hv, hc, ho⟩ := fields_mkCw r v c o
    rw [h] at hr hv hc ho
    obtain ⟨hr', hv', hc', ho'⟩ := fields_mkCw r' v' c' o'
    exact ⟨hr.symm.trans hr', hv.symm.trans hv', hc.symm.trans hc', ho.symm.trans ho'⟩
  · rintro ⟨rfl, rfl, rfl, rfl⟩; rfl

/-- The rows of `CFGW` and `CFGR` fix every field but `CSR` (30_encoding.md R73). -/
theorem csrFreeRow_iff (cw : Word) (opc : BitVec 4) :
    cw &&& 0xFFFFF00F = mkCw 0 false 0 opc ↔ cwRsv cw = 0 ∧ cwOpc cw = opc ∧ cwV cw = false := by
  rw [cw_and_csrFree, mkCw_inj]
  exact ⟨fun ⟨hr, hv, _, ho⟩ => ⟨hr, ho, hv⟩, fun ⟨hr, ho, hv⟩ => ⟨hr, hv, rfl, ho⟩⟩

theorem cfgwRow_iff (cw : Word) : cw &&& 0xFFFFF00F = 0x00000001 ↔ cwRsv cw = 0 ∧ cwOpc cw = 1 ∧ cwV cw = false :=
  csrFreeRow_iff cw 1

theorem cfgrRow_iff (cw : Word) : cw &&& 0xFFFFF00F = 0x00000002 ↔ cwRsv cw = 0 ∧ cwOpc cw = 2 ∧ cwV cw = false :=
  csrFreeRow_iff cw 2

/-- The row of `RXD` is one word (30_encoding.md R73). -/
theorem rxdRow_iff (cw : Word) : cw = 0x00000003 ↔ cwRsv cw = 0 ∧ cwOpc cw = 3 ∧ cwV cw = false ∧ cwCsr cw = 0 := by
  have hrow : (0x00000003 : Word) = mkCw 0 false 0 3 := by decide
  conv_lhs => rw [hrow, ← mkCw_fields cw, mkCw_inj]
  exact ⟨fun ⟨hr, hv, hc, ho⟩ => ⟨hr, ho, hv, hc⟩, fun ⟨hr, ho, hv, hc⟩ => ⟨hr, hv, hc, ho⟩⟩

/-- The row of `TXE` fixes every field but `V` (30_encoding.md R73). -/
theorem txeRow_iff (cw : Word) : cw &&& 0xFFFFEFFF = 0x00000004 ↔ cwRsv cw = 0 ∧ cwOpc cw = 4 ∧ cwCsr cw = 0 := by
  have hrow : (0x00000004 : Word) = mkCw 0 false 0 4 := by decide
  rw [cw_and_vFree, hrow, mkCw_inj]
  exact ⟨fun ⟨hr, _, hc, ho⟩ => ⟨hr, ho, hc⟩, fun ⟨hr, ho, hc⟩ => ⟨hr, rfl, hc, ho⟩⟩

/-! ## The words that decode to each command -/

theorem decode_cfgw_iff (p : Presented) :
    (∃ csr data, decode p = .ok (.cfgw csr data)) ↔ p.cw &&& 0xFFFFF00F = 0x00000001 := by
  rw [cfgwRow_iff]; simp [decode_ok_iff]

theorem decode_cfgr_iff (p : Presented) :
    (∃ csr, decode p = .ok (.cfgr csr)) ↔ p.cw &&& 0xFFFFF00F = 0x00000002 := by
  rw [cfgrRow_iff]; simp [decode_ok_iff]

theorem decode_rxd_iff (p : Presented) : (∃ b, decode p = .ok (.rxd b)) ↔ p.cw = 0x00000003 := by
  rw [rxdRow_iff]; simp [decode_ok_iff]

theorem decode_txe_iff (p : Presented) :
    (∃ v mss tci segs hr tr, decode p = .ok (.txe v mss tci segs hr tr)) ↔ p.cw &&& 0xFFFFEFFF = 0x00000004 := by
  rw [txeRow_iff]; simp [decode_ok_iff]

/-- The four commands are all there are (30_encoding.md R72). -/
theorem exists_instr_iff (P : Instr → Prop) :
    (∃ i, P i) ↔ (∃ csr data, P (.cfgw csr data)) ∨ (∃ csr, P (.cfgr csr)) ∨ (∃ b, P (.rxd b)) ∨
      ∃ v mss tci segs hr tr, P (.txe v mss tci segs hr tr) := by
  constructor
  · rintro ⟨i, h⟩
    cases i with
    | cfgw csr data => exact .inl ⟨csr, data, h⟩
    | cfgr csr => exact .inr (.inl ⟨csr, h⟩)
    | rxd b => exact .inr (.inr (.inl ⟨b, h⟩))
    | txe v mss tci segs hr tr => exact .inr (.inr (.inr ⟨v, mss, tci, segs, hr, tr, h⟩))
  · rintro (⟨_, _, h⟩ | ⟨_, h⟩ | ⟨_, h⟩ | ⟨_, _, _, _, _, _, h⟩) <;> exact ⟨_, h⟩

/-! ## The fields as numbers -/

/-- The fields of a word given by numbers in the fields' ranges are those numbers. -/
theorem fields_of_toNat {cw : Word} {rsv v csr opc : Nat}
    (hcw : cw.toNat = rsv * 2 ^ 13 + v * 2 ^ 12 + csr * 2 ^ 4 + opc) (hv : v < 2) (hcsr : csr < 256) (hopc : opc < 16) :
    (cwRsv cw).toNat = rsv ∧ (cwV cw).toNat = v ∧ (cwCsr cw).toNat = csr ∧ (cwOpc cw).toNat = opc := by
  have hfields := cw_toNat cw
  have hcsr' := (cwCsr cw).isLt
  have hopc' := (cwOpc cw).isLt
  have hv' := Bool.toNat_lt (cwV cw)
  omega

theorem cwRsv_toNat (cw : Word) : (cwRsv cw).toNat = cw.toNat / 2 ^ 13 := by
  have := cw.isLt
  rw [cwRsv, BitVec.extractLsb'_toNat, Nat.shiftRight_eq_div_pow]
  omega

theorem cwCsr_toNat (cw : Word) : (cwCsr cw).toNat = cw.toNat / 16 % 256 := by
  rw [cwCsr, BitVec.extractLsb'_toNat, Nat.shiftRight_eq_div_pow]

theorem cwOpc_toNat (cw : Word) : (cwOpc cw).toNat = cw.toNat % 16 := by
  rw [cwOpc, BitVec.extractLsb'_toNat, Nat.shiftRight_zero]

/-! ## The fields that must be zero -/

theorem rsv_eq_zero_of_decode_ok {p : Presented} {i : Instr} (h : decode p = .ok i) : cwRsv p.cw = 0 :=
  ((decode_ok_iff p i).mp h).1

theorem v_eq_false_of_decode_ok {p : Presented} {i : Instr} (h : decode p = .ok i) (hopc : cwOpc p.cw ≠ 4) :
    cwV p.cw = false := by
  obtain ⟨-, ⟨-, hv, -⟩ | ⟨-, hv, -⟩ | ⟨-, hv, -⟩ | ⟨h4, -⟩⟩ := (decode_ok_iff p i).mp h
  · exact hv
  · exact hv
  · exact hv
  · exact absurd h4 hopc

theorem csr_eq_zero_of_decode_ok {p : Presented} {i : Instr} (h : decode p = .ok i)
    (hopc : cwOpc p.cw = 3 ∨ cwOpc p.cw = 4) : cwCsr p.cw = 0 := by
  obtain ⟨-, ⟨h1, -⟩ | ⟨h2, -⟩ | ⟨-, -, hcsr, -⟩ | ⟨-, hcsr, -⟩⟩ := (decode_ok_iff p i).mp h
  · rw [h1] at hopc; exact absurd hopc (by decide)
  · rw [h2] at hopc; exact absurd hopc (by decide)
  · exact hcsr
  · exact hcsr

/-- Settles O2: a word is its four fields, so each row of the table is the fields it fixes (`cfgwRow_iff` to `txeRow_iff`), and
those are the fields `decode_ok_iff` asks of each command. -/
theorem legalWordsAreTheTableRows : Obligations.LegalWordsAreTheTableRows := by
  unfold Obligations.LegalWordsAreTheTableRows
  intro p
  refine ⟨?_, decode_cfgw_iff p, decode_cfgr_iff p, decode_rxd_iff p, decode_txe_iff p, ?_, ?_, ?_⟩
  · rw [exists_instr_iff, decode_cfgw_iff, decode_cfgr_iff, decode_rxd_iff, decode_txe_iff]
  · rintro hrsv ⟨i, hi⟩
    rw [← cwRsv_toNat, rsv_eq_zero_of_decode_ok hi] at hrsv
    exact hrsv rfl
  · rintro hv hopc ⟨i, hi⟩
    rw [← cwOpc_toNat] at hopc
    have hv' : cwV p.cw = false := v_eq_false_of_decode_ok hi fun h4 => hopc (by rw [h4]; rfl)
    exact absurd (hv.symm.trans hv') (by decide)
  · rintro hcsr hopc ⟨i, hi⟩
    rw [← cwOpc_toNat] at hopc
    rw [← cwCsr_toNat, csr_eq_zero_of_decode_ok hi (hopc.imp BitVec.eq_of_toNat_eq BitVec.eq_of_toNat_eq)] at hcsr
    exact hcsr rfl

/-! ## The decoding procedure over numbers -/

/-- The decoder is total: what is not a command is an error (30_encoding.md R78). -/
theorem decode_error_iff (p : Presented) : (∃ e, decode p = .error e) ↔ ¬ ∃ i, decode p = .ok i := by
  cases decode p <;> simp

/-- Everything the decoder accepts, for a word given by its fields as numbers. -/
theorem decode_ok_iff_of_toNat {p : Presented} {rsv v csr opc : Nat}
    (hcw : p.cw.toNat = rsv * 2 ^ 13 + v * 2 ^ 12 + csr * 2 ^ 4 + opc) (hv : v < 2) (hcsr : csr < 256) (hopc : opc < 16)
    (i : Instr) :
    decode p = .ok i ↔ rsv = 0 ∧
      ((opc = 1 ∧ v = 0 ∧ i = .cfgw (BitVec.ofNat 8 csr) p.ops.data) ∨
        (opc = 2 ∧ v = 0 ∧ i = .cfgr (BitVec.ofNat 8 csr)) ∨
        (opc = 3 ∧ v = 0 ∧ csr = 0 ∧ i = .rxd p.ops.buf) ∨
        (opc = 4 ∧ csr = 0 ∧
          i = .txe (decide (v = 1)) (op0Mss p.ops.op0) (op0Tci p.ops.op0) p.ops.segs p.ops.hr p.ops.tr)) := by
  obtain ⟨rfl, rfl, rfl, rfl⟩ := fields_of_toNat hcw hv hcsr hopc
  have hflag : decide ((cwV p.cw).toNat = 1) = cwV p.cw := by cases cwV p.cw <;> rfl
  rw [decode_ok_iff, hflag, BitVec.ofNat_toNat, BitVec.setWidth_eq]
  simp only [← BitVec.toNat_inj, Bool.toNat_eq_zero]
  rfl

/-- Settles O3: `decode_ok_iff_of_toNat` says which fields give which command, and every other word is an error. -/
theorem decodeFollowsTheProcedure : Obligations.DecodeFollowsTheProcedure := by
  unfold Obligations.DecodeFollowsTheProcedure
  intro p rsv v csr opc hcw hv hcsr hopc
  have hok := decode_ok_iff_of_toNat hcw hv hcsr hopc
  refine ⟨fun hrsv => ?_, fun hrsv h1 hv0 => ?_, fun hrsv h2 hv0 => ?_, fun hrsv h3 hv0 hcsr0 => ?_,
    fun hrsv h4 hcsr0 => ?_, fun _ hctl hrxd htxe => ?_⟩
  · exact (decode_error_iff p).mpr fun ⟨i, hi⟩ => hrsv ((hok i).mp hi).1
  · exact (hok _).mpr ⟨hrsv, .inl ⟨h1, hv0, rfl⟩⟩
  · exact (hok _).mpr ⟨hrsv, .inr (.inl ⟨h2, hv0, rfl⟩)⟩
  · exact (hok _).mpr ⟨hrsv, .inr (.inr (.inl ⟨h3, hv0, hcsr0, rfl⟩))⟩
  · exact (hok _).mpr ⟨hrsv, .inr (.inr (.inr ⟨h4, hcsr0, rfl⟩))⟩
  · refine (decode_error_iff p).mpr fun ⟨i, hi⟩ => ?_
    obtain ⟨-, ⟨h1, hv0, -⟩ | ⟨h2, hv0, -⟩ | ⟨h3, hv0, hcsr0, -⟩ | ⟨h4, hcsr0, -⟩⟩ := (hok i).mp hi
    · exact hctl ⟨.inl h1, hv0⟩
    · exact hctl ⟨.inr h2, hv0⟩
    · exact hrxd ⟨h3, hv0, hcsr0⟩
    · exact htxe ⟨h4, hcsr0⟩

end Sys2Proof.Machine
end

section
/-! PROOFS. The port's answer to an illegal word (30_encoding.md R79). -/

namespace Sys2Proof.Machine

theorem step_of_pending_command {s : State} {p : Presented} {rest : List HostEvent}
    (h : s.host.pending = .command p :: rest) : step s = runPresented p (setPending rest s) := by
  rw [step, portStep, h]

theorem runPresented_of_decode_error {p : Presented} {e : IllegalWord} (h : decode p = .error e) (s : State) :
    runPresented p s = .next (completeCommand (illegalCommand s)) := by
  rw [runPresented, h]; rfl

/-- Settles O8: a word that decodes to no command decodes to an error, and the port answers every error in the same way. -/
theorem illegalWordAnswersIllegalCmd : Obligations.IllegalWordAnswersIllegalCmd := by
  unfold Obligations.IllegalWordAnswersIllegalCmd
  intro s p rest hpending hillegal
  obtain ⟨e, he⟩ := (decode_error_iff p).mpr hillegal
  rw [step_of_pending_command hpending, runPresented_of_decode_error he]
  rfl

end Sys2Proof.Machine
end

section
/-! PROOFS. The reassembly engine check by check (40_rx_reassembly.md R112 to R121): the reason each failing check gives, and
what an `RXD` then does. -/

namespace Sys2Proof.Machine

/-! ## The outcome of the validation decides the command -/

/-- `RX_STATUS` after a discard, per reason (60_exceptions.md R231, 40_rx_reassembly.md R122). -/
def discardStatus : Reason → Word
  | .short => 0x31
  | .offsetMismatch => 0x32
  | .offsetRange => 0x33
  | .zeroCount => 0x34
  | .overrun => 0x35
  | .sumMismatch => 0x36

theorem rxStatusWord_discard (r : Reason) : rxStatusWord (reasonBits r) true true 0 0 = discardStatus r := by
  cases r <;> rfl

theorem rxdCommand_of_maxLen_zero {s : State} (b : List Byte) (hcfg : cfgMaxLen s = 0) :
    rxdCommand b s = raiseCode .badConfig s := by
  simp only [rxdCommand, takeSnapshot_eq, hcfg, if_true]

theorem rxdCommand_of_validate_error {s : State} {b : List Byte} {r : Reason} (hcfg : cfgMaxLen s ≠ 0)
    (hv : validateTransfer s.params.layout b = .error r) : rxdCommand b s = discardTransfer r s := by
  simp only [rxdCommand, takeSnapshot_eq, hcfg, if_false, hv]

/-- A discard changes `RX_STATUS`, `RSP` and the host's buffer, and nothing else (40_rx_reassembly.md R122). -/
theorem exec_rxd_of_validate_error {s : State} {b : List Byte} {r : Reason} (hlay : layoutValid s.params.layout = true)
    (hlen : b.length < 2 ^ 32) (hcfg : cfgMaxLen s ≠ 0) (hv : validateTransfer s.params.layout b = .error r) :
    exec (.rxd b) s = .next { s with csr := { s.csr with rxStatus := discardStatus r }, rsp := ⟨6, 0⟩,
                                     host := { s.host with rxBuf := b } } := by
  have hcmd : rxdCommand b (holdTransfer b s) = discardTransfer r (holdTransfer b s) :=
    rxdCommand_of_validate_error hcfg hv
  refine (exec_rxd_next_iff b s _).mpr ⟨hlen, hlay, ?_⟩
  rw [hcmd, discardTransfer_eq, rxStatusWord_discard]
  rfl

/-! ## The checks before the slot walk -/

theorem validateTransfer_of_short (lay : Layout) {b : List Byte} (h : b.length < 8) :
    validateTransfer lay b = .error .short := by
  rw [validateTransfer, if_pos h]

section
variable {lay : Layout} {b : List Byte} (h8 : 8 ≤ b.length)
include h8

theorem validateTransfer_of_offsetMismatch
    (h : b.length < 8 * (packetCount lay (trailerWord b) + 1) ∨
      trailerOffset lay (trailerWord b) ≠ b.length - 8 * (packetCount lay (trailerWord b) + 1)) :
    validateTransfer lay b = .error .offsetMismatch := by
  simp only [validateTransfer, if_neg (Nat.not_lt.mpr h8), if_pos h]

/-- Past the offset check: the count check is next, the range check cannot fail (40_rx_reassembly.md R115, R116). -/
theorem validateTransfer_of_offset
    (hL : b.length = trailerOffset lay (trailerWord b) + 8 * (packetCount lay (trailerWord b) + 1)) :
    validateTransfer lay b =
      if packetCount lay (trailerWord b) = 0 then .error .zeroCount
      else walkSlots (trailerOffset lay (trailerWord b)) (transferDescs lay b) 0 := by
  have hoffset : ¬ (b.length < 8 * (packetCount lay (trailerWord b) + 1) ∨
      trailerOffset lay (trailerWord b) ≠ b.length - 8 * (packetCount lay (trailerWord b) + 1)) := by omega
  have hrange : trailerOffset lay (trailerWord b) < b.length := by omega
  simp only [validateTransfer, if_neg (Nat.not_lt.mpr h8), if_neg hoffset, if_neg (not_not_intro hrange), transferDescs]

end

/-- Settles O27: the configuration check comes before the validation, whose first check is that of the length. -/
theorem rxdEntryChecks : Obligations.RxdEntryChecks := by
  unfold Obligations.RxdEntryChecks
  intro s b hlay hlen
  refine ⟨fun hcfg => ?_, fun hcfg hshort => ?_⟩
  · have hcmd : rxdCommand b (holdTransfer b s) = raiseCode .badConfig (holdTransfer b s) :=
      rxdCommand_of_maxLen_zero b hcfg
    exact (exec_rxd_next_iff b s _).mpr ⟨hlen, hlay, hcmd.symm⟩
  · exact exec_rxd_of_validate_error hlay hlen hcfg (validateTransfer_of_short _ hshort)

/-- Settles O28: a transfer with the wrong offset ends at the offset check, and one with the right offset and no descriptor at
the count check. -/
theorem rxdOffsetAndCountChecks : Obligations.RxdOffsetAndCountChecks := by
  unfold Obligations.RxdOffsetAndCountChecks
  rintro s b _ _ hlay hlen hcfg h8 rfl rfl
  refine ⟨fun hoffset => ?_, fun hcount hoffset hzero => ?_⟩
  · exact exec_rxd_of_validate_error hlay hlen hcfg (validateTransfer_of_offsetMismatch h8 hoffset)
  · have hv : validateTransfer s.params.layout b = .error .zeroCount :=
      (validateTransfer_of_offset h8 (Nat.eq_add_of_sub_eq hcount hoffset.symm)).trans (if_pos hzero)
    exact exec_rxd_of_validate_error hlay hlen hcfg hv

/-! ## The slot walk -/

@[simp] theorem transferDescs_length (lay : Layout) (b : List Byte) :
    (transferDescs lay b).length = packetCount lay (trailerWord b) := descriptors_length _ _ _ _

theorem walkSlots_of_overrun {off : Nat} {ds : List Desc} (h : ∃ i < ds.length, off < consumedUpTo ds (i + 1)) :
    walkSlots off ds 0 = .error .overrun := by
  simp only [walkSlots_eq, Nat.zero_add, if_pos h]

theorem walkSlots_of_sumMismatch {off : Nat} {ds : List Desc} (hfit : ∀ i < ds.length, consumedUpTo ds (i + 1) ≤ off)
    (hsum : consumedUpTo ds ds.length ≠ off) : walkSlots off ds 0 = .error .sumMismatch := by
  have hno : ¬ ∃ i < ds.length, off < consumedUpTo ds (i + 1) := fun ⟨i, hi, h⟩ => Nat.not_lt.mpr (hfit i hi) h
  simp only [walkSlots_eq, Nat.zero_add, if_neg hno, if_pos hsum]

/-- Settles O29: past the offset and the count check the validation is the slot walk, which fails at a descriptor that overruns
the data area, or else at the end. -/
theorem rxdOverrunAndSumChecks : Obligations.RxdOverrunAndSumChecks := by
  unfold Obligations.RxdOverrunAndSumChecks
  rintro s b _ _ _ hlay hlen hcfg h8 rfl rfl hL hpos rfl
  have hwalk : validateTransfer s.params.layout b =
      walkSlots (trailerOffset s.params.layout (trailerWord b)) (transferDescs s.params.layout b) 0 :=
    (validateTransfer_of_offset h8 hL).trans (if_neg hpos.ne')
  have hpc := transferDescs_length s.params.layout b
  refine ⟨fun hover => ?_, fun hfit hsum => ?_⟩
  · refine exec_rxd_of_validate_error hlay hlen hcfg (hwalk.trans (walkSlots_of_overrun ?_))
    rw [hpc]; exact hover
  · refine exec_rxd_of_validate_error hlay hlen hcfg (hwalk.trans (walkSlots_of_sumMismatch ?_ ?_)) <;> rw [hpc]
    · exact hfit
    · exact hsum

end Sys2Proof.Machine
end

section
/-! PROOFS. The delivery phase of the reassembly engine (40_rx_reassembly.md R123 to R130, R133): the frames a transfer
appends, and the descriptor each of them comes from. -/

namespace Sys2Proof.Machine

/-! ## The frames of a transfer -/

/-- The frames of the accepted descriptors of a transfer, in ascending index (40_rx_reassembly.md R123, R128). -/
def transferFrames (s : State) (b : List Byte) : List Frame :=
  (List.range (packetCount s.params.layout (trailerWord b))).filterMap (frameAt s b (transferDescs s.params.layout b))

theorem transferFrames_length_le (s : State) (b : List Byte) :
    (transferFrames s b).length ≤ packetCount s.params.layout (trailerWord b) :=
  (List.length_filterMap_le _ _).trans List.length_range.le

theorem deliveredFrames_transfer (s : State) (b : List Byte) :
    deliveredFrames s.params (takeSnapshot s.csr) b (slotsOf (transferDescs s.params.layout b)) = transferFrames s b := by
  rw [deliveredFrames_eq, transferDescs_length, transferFrames]

/-- `RX_STATUS` of a success as one number (10_state.md R28, 40_rx_reassembly.md R130). -/
theorem rxStatusWord_success {dl sk : Nat} (hdl : dl < 2 ^ 13) (hsk : sk < 2 ^ 13) :
    rxStatusWord 0 false true dl sk = BitVec.ofNat 32 (2 ^ 5 + dl * 2 ^ 6 + sk * 2 ^ 19) := by
  refine BitVec.eq_of_toNat_eq ?_
  rw [rxStatusWord_toNat, BitVec.toNat_ofNat, Nat.mod_eq_of_lt hdl, Nat.mod_eq_of_lt hsk]
  have hreason : (0 : BitVec 4).toNat = 0 := rfl
  simp only [hreason, Bool.toNat_false, Bool.toNat_true]
  omega

theorem rxdCommand_of_consistent {s : State} {b : List Byte} (hcfg : cfgMaxLen s ≠ 0)
    (hcons : transferConsistent s.params.layout b) :
    rxdCommand b s = deliverTransfer (takeSnapshot s.csr) b (slotsOf (transferDescs s.params.layout b)) s := by
  obtain ⟨hzero, -⟩ | ⟨-, r, herr, -⟩ | ⟨-, -, -, hcmd⟩ := rxdCommand_cases b s
  · exact absurd hzero hcfg
  · obtain ⟨slots, hok⟩ := (validateTransfer_ok_iff_consistent _ _).mpr hcons
    rw [herr] at hok; exact nomatch hok
  · exact hcmd

/-- Settles O30: a consistent transfer is delivered, its frames are those of `deliveredFrames_eq`, and the two counts fit the
13-bit fields of `RX_STATUS` because the packet count does. -/
theorem rxdDeliversTheAcceptedFrames : Obligations.RxdDeliversTheAcceptedFrames := by
  unfold Obligations.RxdDeliversTheAcceptedFrames
  rintro s b _ _ hlay hlen hcfg hcons rfl rfl
  have hnd := transferFrames_length_le s b
  have hpc := packetCount_lt s.params.layout hlay (trailerWord b)
  refine ⟨(exec_rxd_next_iff b s _).mpr ⟨hlen, hlay, ?_⟩, hnd, Nat.le_of_lt_succ hpc⟩
  have hcmd : rxdCommand b (holdTransfer b s) = deliverTransfer (takeSnapshot s.csr) b
      (slotsOf (transferDescs s.params.layout b)) (holdTransfer b s) := rxdCommand_of_consistent hcfg hcons
  rw [hcmd, deliverTransfer_eq, holdTransfer_params, deliveredFrames_transfer, slotsOf_length, transferDescs_length,
    rxStatusWord_success (by omega) (by omega)]
  rfl

/-! ## The source of a frame -/

/-- A frame comes from an accepted descriptor, and is the engine's frame of that descriptor's slot (40_rx_reassembly.md R124 to
R127). -/
theorem frameAt_eq_some_iff (s : State) (b : List Byte) (ds : List Desc) (i : Nat) (f : Frame) :
    frameAt s b ds i = some f ↔ ∃ h : i < ds.length, accepts s.params (cfgMaxLen s) ds[i] = true ∧
      frameOf s.params.rxHwPad (cfgCsumEn s) b ⟨consumedUpTo ds i, ds[i]⟩ = f := by
  by_cases hi : i < ds.length
  · simp only [frameAt, List.getElem?_eq_getElem hi, Option.bind_some, ← accepts_iff, Option.ite_none_right_eq_some,
      Option.some.injEq, frameOf, csumOf_eq, vlanOf, hi, exists_true_left]
  · simp [frameAt, hi]

theorem csumOf_eq_verifiedGood_iff (d : Desc) :
    csumOf true d = .verifiedGood ↔ (d.l4t = .tcp ∨ d.l4t = .udp) ∧ d.l3err = false ∧ d.l4err = false := by
  rw [csumOf_eq, ite_eq_left_iff]
  simp only [reduceCtorEq, imp_false, not_not, true_and]
  exact and_rotate.symm

/-- The sum check over the whole descriptor array (40_rx_reassembly.md R121). -/
theorem transferConsistent_sum {lay : Layout} {b : List Byte} (h : transferConsistent lay b) :
    ((transferDescs lay b).map fun d => roundUp8 d.len).sum = trailerOffset lay (trailerWord b) := by
  obtain ⟨-, -, -, hsum⟩ := h
  rwa [consumedUpTo, ← transferDescs_length, List.take_length] at hsum

/-- Everything an `RXD` can append to `FS` (40_rx_reassembly.md R111, R123). -/
theorem exec_rxd_fs {s t : State} {b : List Byte} (h : exec (.rxd b) s = .next t) :
    t.fs = s.fs ∨ transferConsistent s.params.layout b ∧ t.fs = s.fs ++ transferFrames s b := by
  obtain ⟨-, -, rfl⟩ := (exec_rxd_next_iff b s t).mp h
  obtain ⟨-, hcmd⟩ | ⟨-, r, -, hcmd⟩ | ⟨-, hcons, -, hcmd⟩ := rxdCommand_cases b (holdTransfer b s)
  · exact .inl (by rw [hcmd]; rfl)
  · exact .inl (by rw [hcmd]; rfl)
  · refine .inr ⟨hcons, ?_⟩
    rw [hcmd, deliverTransfer_eq, ← deliveredFrames_transfer]
    rfl

/-- Settles O32: what an `RXD` appends are the frames of a consistent transfer, whose lengths add up, and each comes from an
accepted descriptor, which has no drop flag and, if such frames are skipped, no error flag. -/
theorem rxdFramePropertiesOfTheSource : Obligations.RxdFramePropertiesOfTheSource := by
  unfold Obligations.RxdFramePropertiesOfTheSource
  intro s t b hexec
  obtain hfs | ⟨hcons, hfs⟩ := exec_rxd_fs hexec
  · exact ⟨[], by simpa using hfs, fun h => absurd rfl h, by simp⟩
  refine ⟨transferFrames s b, hfs, fun _ => transferConsistent_sum hcons, fun f hf => ?_⟩
  obtain ⟨i, -, hat⟩ := List.mem_filterMap.mp hf
  obtain ⟨hi, hacc, rfl⟩ := (frameAt_eq_some_iff _ _ _ _ _).mp hat
  obtain ⟨hdrop, -, herr, -, -⟩ := (accepts_iff _ _ _).mp hacc
  refine ⟨i, hi, hat, fun hskip => ?_, fun hcsum => ?_⟩
  · have hnone := fun h => herr ⟨hskip, h⟩
    exact ⟨hdrop, Bool.eq_false_of_not_eq_true fun h => hnone (.inl h),
      Bool.eq_false_of_not_eq_true fun h => hnone (.inr h)⟩
  · rw [hcsum]; exact csumOf_eq_verifiedGood_iff _

end Sys2Proof.Machine
end

section
/-! PROOFS. The framing engine check by check (41_tx_framing.md R161 to R170): the two checks that end a `TXE`, and the frame
it sends when the host grants every draw it asks for. -/

namespace Sys2Proof.Machine

/-! ## The checks decide the command -/

section
variable {s : State} {mss : BitVec 16} {segs : List (List Byte)} {hr tr : Nat} (v : Bool) (tci : BitVec 16)

theorem txeCommand_of_maxPkt_le (hcfg : cfgMaxPkt s ≤ 8) :
    txeCommand v mss tci segs hr tr s = raiseCode .badConfig s := by
  simp only [txeCommand, takeSnapshot_eq, if_pos hcfg]

theorem txeCommand_of_oversize (hcfg : 8 < cfgMaxPkt s)
    (hsize : txLenMax s.params.layout < (frameBytes segs).length ∨ txMssMax s.params.layout < mss.toNat) :
    txeCommand v mss tci segs hr tr s = raiseCode .badOperand s := by
  simp only [txeCommand, takeSnapshot_eq, if_neg (Nat.not_le.mpr hcfg), if_pos hsize]

/-- Past the checks, with both resources granted, the frame goes out (41_tx_framing.md R168 to R171). -/
theorem txeCommand_of_resources_ok {s₁ s₂ : State} (hcfg : 8 < cfgMaxPkt s)
    (hlen : (frameBytes segs).length ≤ txLenMax s.params.layout) (hmss : mss.toNat ≤ txMssMax s.params.layout)
    (hlin : linearizeStep segs (cfgSgOk s) s = (.ok, s₁))
    (hmargin : marginStep hr tr (paddingFor (frameBytes segs).length (cfgMaxPkt s)) s₁ = (.ok, s₂)) :
    txeCommand v mss tci segs hr tr s =
      finishTransmit (txHeader s.params.layout v mss tci (frameBytes segs).length (cfgMaxPkt s)) (frameBytes segs)
        (guardFires (frameBytes segs).length (cfgMaxPkt s)) (paddingFor (frameBytes segs).length (cfgMaxPkt s)) s₂ := by
  have hsize : ¬ (txLenMax s.params.layout < (frameBytes segs).length ∨ txMssMax s.params.layout < mss.toNat) := by omega
  simp only [txeCommand, takeSnapshot_eq, if_neg (Nat.not_le.mpr hcfg), if_neg hsize, hlin, hmargin]

end

/-- Settles O39: the configuration check is the first of a `TXE`. -/
theorem txeConfigurationCheck : Obligations.TxeConfigurationCheck := by
  unfold Obligations.TxeConfigurationCheck
  intro s v mss tci segs hr tr hlay hhr htr hcfg
  refine ⟨_, (exec_txe_next_iff v mss tci segs hr tr s _).mpr ⟨hhr, htr, hlay, rfl⟩, ?_⟩
  have hcmd : txeCommand v mss tci segs hr tr (useSegments segs s) = raiseCode .badConfig (useSegments segs s) :=
    txeCommand_of_maxPkt_le v tci hcfg
  rw [hcmd]
  rfl

/-- Settles O40: the operand check is the second, and under a usable layout its bounds are those of 21 and 15 bits. -/
theorem txeOperandCheck : Obligations.TxeOperandCheck := by
  unfold Obligations.TxeOperandCheck
  intro s v mss tci segs hr tr hlay hhr htr hcfg hsize
  refine ⟨_, (exec_txe_next_iff v mss tci segs hr tr s _).mpr ⟨hhr, htr, hlay, rfl⟩, ?_⟩
  rw [← txLenMax_eq _ hlay, ← txMssMax_eq _ hlay] at hsize
  have hcmd : txeCommand v mss tci segs hr tr (useSegments segs s) = raiseCode .badOperand (useSegments segs s) :=
    txeCommand_of_oversize v tci hcfg hsize
  rw [hcmd]
  rfl

/-! ## The draws -/

theorem drawAnswer_of_answers {a : Answer} {rest : List Answer} {s : State} (d : Draw) (h : s.host.answers = a :: rest) :
    drawAnswer d s = (a, { s with host := { s.host with answers := rest } }) := by
  rw [drawAnswer, h]

/-- A resource that is asked for under a condition, and granted: the host's answer is used up exactly when it is asked for. -/
theorem drawAnswer_granted {c : Prop} [Decidable c] {s : State} {rest : List Answer} (d : Draw)
    (h : s.host.answers = List.replicate (if c then 1 else 0) Answer.ok ++ rest) :
    (if c then drawAnswer d s else (.ok, s)) = (.ok, { s with host := { s.host with answers := rest } }) := by
  by_cases hc : c
  · rw [if_pos hc] at h ⊢
    exact drawAnswer_of_answers d h
  · rw [if_neg hc] at h ⊢
    obtain rfl : s.host.answers = rest := h
    rfl

theorem linearizeStep_granted {segs : List (List Byte)} {sg : Bool} {s : State} {rest : List Answer}
    (h : s.host.answers = List.replicate (if 1 < segs.length ∧ sg = false then 1 else 0) Answer.ok ++ rest) :
    linearizeStep segs sg s = (.ok, { s with host := { s.host with answers := rest } }) := by
  rw [← drawAnswer_granted .lin h]
  simp only [linearizeStep, Bool.and_eq_true, decide_eq_true_eq, Bool.not_eq_true']

theorem marginStep_granted {hr tr pad : Nat} {s : State} {rest : List Answer}
    (h : s.host.answers = List.replicate (if hr < 8 ∨ tr < pad then 1 else 0) Answer.ok ++ rest) :
    marginStep hr tr pad s = (.ok, { s with host := { s.host with answers := rest } }) :=
  drawAnswer_granted .alloc h

/-! ## The header, the padding and the status of a frame sent -/

theorem getLsbD_setField_outside {f : Field} {k : Nat} (h : ¬ (f.lo ≤ k ∧ k < f.lo + f.width)) (w : DWord) (x : Nat) :
    (setField f w x).getLsbD k = w.getLsbD k := by
  by_cases hk : k < 64
  · rw [getLsbD_setField f w x k hk, if_neg h]
  · rw [BitVec.getLsbD_of_ge _ _ (Nat.not_lt.mp hk), BitVec.getLsbD_of_ge _ _ (Nat.not_lt.mp hk)]

/-- Every bit of the header outside its five fields is 0 (30_encoding.md R84). -/
theorem getLsbD_txHeader_outside {lay : Layout} {k : Nat}
    (h : ∀ f ∈ headerFields lay, ¬ (f.lo ≤ k ∧ k < f.lo + f.width)) (v : Bool) (mss tci : BitVec 16) (n m : Nat) :
    (txHeader lay v mss tci n m).getLsbD k = false := by
  have outside : ∀ f ∈ headerFields lay, ∀ w x, (setField f w x).getLsbD k = w.getLsbD k :=
    fun f hf => getLsbD_setField_outside (h f hf)
  simp only [headerFields, List.forall_mem_cons] at outside
  obtain ⟨hlen, hdrop, hvlan, hmss, htci, -⟩ := outside
  unfold txHeader
  cases v <;> cases guardFires n m <;> simp [hlen, hdrop, hvlan, hmss, htci]

theorem paddingFor_eq (n m : Nat) :
    paddingFor n m = if (n + 8 + basePadding n) % m = 0 then basePadding n + 8 else basePadding n := by
  simp only [paddingFor, guardFires, beq_iff_eq]

theorem guardFires_toNat (n m : Nat) : (guardFires n m).toNat = if (n + 8 + basePadding n) % m = 0 then 1 else 0 := by
  simp only [guardFires, Bool.toNat, cond_eq_ite, beq_iff_eq]

/-- `TX_STATUS` of a success as one number (10_state.md R29, 41_tx_framing.md R170). -/
theorem txStatusWord_success {pad enc : Nat} (drop : Bool) (hpad : pad < 2 ^ 4) (henc : enc < 2 ^ 23) :
    txStatusWord true false 0 drop pad enc = BitVec.ofNat 32 (1 + drop.toNat * 2 ^ 4 + pad * 2 ^ 5 + enc * 2 ^ 9) := by
  have hdrop := Bool.toNat_lt drop
  have hfail : (0 : BitVec 2).toNat = 0 := rfl
  refine BitVec.eq_of_toNat_eq ?_
  rw [txStatusWord_toNat, BitVec.toNat_ofNat, Nat.mod_eq_of_lt hpad, Nat.mod_eq_of_lt henc, hfail]
  simp only [Bool.toNat_false, Bool.toNat_true]
  omega

/-- Past its checks, with every draw it needs granted, a `TXE` sends its frame and uses up those answers
(41_tx_framing.md R166 to R170). -/
theorem txeCommand_of_draws_granted {s : State} {mss : BitVec 16} {segs : List (List Byte)} {hr tr : Nat}
    {rest : List Answer} (v : Bool) (tci : BitVec 16) (hcfg : 8 < cfgMaxPkt s)
    (hlen : (frameBytes segs).length ≤ txLenMax s.params.layout) (hmss : mss.toNat ≤ txMssMax s.params.layout)
    (hans : s.host.answers = List.replicate
      (drawsNeeded segs (cfgSgOk s) hr tr (paddingFor (frameBytes segs).length (cfgMaxPkt s))) Answer.ok ++ rest) :
    txeCommand v mss tci segs hr tr s =
      finishTransmit (txHeader s.params.layout v mss tci (frameBytes segs).length (cfgMaxPkt s)) (frameBytes segs)
        (guardFires (frameBytes segs).length (cfgMaxPkt s)) (paddingFor (frameBytes segs).length (cfgMaxPkt s))
        { s with host := { s.host with answers := rest } } := by
  rw [drawsNeeded, ← List.replicate_append_replicate, List.append_assoc] at hans
  exact txeCommand_of_resources_ok v tci hcfg hlen hmss (linearizeStep_granted hans) (marginStep_granted rfl)

/-- Settles O42: with every draw granted the frame is sent; `txHeader_fields` and `getLsbD_txHeader_outside` say every bit of
its header, and the padding and the encoded length fit their fields of `TX_STATUS`. -/
theorem txeEncodesTheFrame : Obligations.TxeEncodesTheFrame := by
  unfold Obligations.TxeEncodesTheFrame
  rintro s v mss tci segs hr tr n _ _ pad drop rest hlay hhr htr hcfg rfl hlen hmss rfl rfl hpad hdrop hans
  obtain rfl : pad = paddingFor segs.flatten.length (cfgMaxPkt s) := hpad.trans (paddingFor_eq _ _).symm
  obtain rfl : drop = (guardFires segs.flatten.length (cfgMaxPkt s)).toNat := hdrop.trans (guardFires_toNat _ _).symm
  obtain ⟨hfLen, hfMss, hfVlan, hfTci, hfDrop⟩ :=
    txHeader_fields s.params.layout hlay v mss tci segs.flatten.length (cfgMaxPkt s)
  have hcmd := txeCommand_of_draws_granted (s := useSegments segs s) (mss := mss) v tci hcfg
    (by rw [useSegments_params, txLenMax_eq _ hlay]; exact Nat.le_pred_of_lt hlen)
    (by rw [useSegments_params, txMssMax_eq _ hlay]; exact Nat.le_pred_of_lt hmss) hans
  obtain ⟨hpadLe, -⟩ := paddingFor_spec segs.flatten.length (cfgMaxPkt s)
  have hstatus := txStatusWord_success (guardFires segs.flatten.length (cfgMaxPkt s)) (Nat.lt_succ_of_le hpadLe)
    (enc := 8 + segs.flatten.length + paddingFor segs.flatten.length (cfgMaxPkt s)) (by omega)
  refine ⟨_, _, hfLen.trans (Nat.mod_eq_of_lt hlen), hfMss.trans (Nat.mod_eq_of_lt hmss), hfVlan.trans ?_, hfTci, hfDrop,
    fun k hk => getLsbD_txHeader_outside hk v mss tci _ _,
    (exec_txe_next_iff v mss tci segs hr tr s _).mpr ⟨hhr, htr, hlay, rfl⟩, ?_⟩
  · cases v <;> rfl
  · rw [hcmd, finishTransmit_eq, ← hstatus]
    rfl

end Sys2Proof.Machine
end

section
/-! PROOFS. What `CFGW` and `CFGR` answer (42_control.md R200 to R206): one equation per command and kind of index; the
statements about single registers follow from these. -/

namespace Sys2Proof.Machine

/-! ## The index decides the answer -/

@[simp] theorem csrOfIndex_csrIndex (r : CsrName) : csrOfIndex (csrIndex r) = some r :=
  (csrOfIndex_eq_some _ r).mpr rfl

theorem exec_cfgw_of_writable {r : CsrName} (h : csrReadOnly r = false) (d : Word) (s : State) :
    exec (.cfgw (csrIndex r) d) s = .next (respond .ok 0 { s with csr := csrWrite s.csr r d }) := by
  simp only [exec, execCfgw, csrOfIndex_csrIndex, h, Bool.false_eq_true, if_false]

theorem exec_cfgw_of_readOnly {r : CsrName} (h : csrReadOnly r = true) (d : Word) (s : State) :
    exec (.cfgw (csrIndex r) d) s = .next (raiseCode .roWrite s) := by
  simp only [exec, execCfgw, csrOfIndex_csrIndex, h, if_true]

theorem exec_cfgw_of_undefined {i : BitVec 8} (h : csrOfIndex i = none) (d : Word) (s : State) :
    exec (.cfgw i d) s = .next (raiseCode .badCsr s) := by
  simp only [exec, execCfgw, h]

theorem exec_cfgr_csrIndex (r : CsrName) (s : State) :
    exec (.cfgr (csrIndex r)) s = .next (respond .ok (csrRead s.csr r) s) := by
  simp only [exec, execCfgr, csrOfIndex_csrIndex]

theorem exec_cfgr_of_undefined {i : BitVec 8} (h : csrOfIndex i = none) (s : State) :
    exec (.cfgr i) s = .next (raiseCode .badCsr s) := by
  simp only [exec, execCfgr, h]

/-! ## Reading each register (10_state.md R24 to R29) -/

@[simp] theorem csrRead_rxMaxLen (c : Csr) : csrRead c .rxMaxLen = c.rxMaxLen &&& 0x0000FFFF := rfl
@[simp] theorem csrRead_rxCtrl (c : Csr) : csrRead c .rxCtrl = c.rxCtrl &&& 0x00000001 := rfl
@[simp] theorem csrRead_txMaxPkt (c : Csr) : csrRead c .txMaxPkt = c.txMaxPkt &&& 0x0000FFFF := rfl
@[simp] theorem csrRead_txCtrl (c : Csr) : csrRead c .txCtrl = c.txCtrl &&& 0x00000001 := rfl
@[simp] theorem csrRead_rxStatus (c : Csr) : csrRead c .rxStatus = c.rxStatus := BitVec.and_allOnes
@[simp] theorem csrRead_txStatus (c : Csr) : csrRead c .txStatus = c.txStatus := BitVec.and_allOnes

/-- A `CFGR` of a register whose read value is known, as one record update (42_control.md R205). -/
theorem exec_cfgr_of_csrRead {r : CsrName} {s : State} {w : Word} (h : csrRead s.csr r = w) :
    exec (.cfgr (csrIndex r)) s = .next { s with rsp := ⟨0, w⟩ } := by
  rw [exec_cfgr_csrIndex, h]; rfl

/-! ## The statements -/

/-- Settles O20: the four registers are the writable ones, and `csrWrite` of each is the update of its own field. -/
theorem cfgwWritesUnderTheMask : Obligations.CfgwWritesUnderTheMask := by
  unfold Obligations.CfgwWritesUnderTheMask
  intro s data
  exact ⟨exec_cfgw_of_writable (r := .rxMaxLen) rfl data s, exec_cfgw_of_writable (r := .rxCtrl) rfl data s,
    exec_cfgw_of_writable (r := .txMaxPkt) rfl data s, exec_cfgw_of_writable (r := .txCtrl) rfl data s⟩

/-- Settles O22: the two indices are those of the read-only registers. -/
theorem cfgwOfAStatusRegisterRaisesRoWrite : Obligations.CfgwOfAStatusRegisterRaisesRoWrite := by
  unfold Obligations.CfgwOfAStatusRegisterRaisesRoWrite
  rintro s _ data (rfl | rfl)
  · exact exec_cfgw_of_readOnly (r := .rxStatus) rfl data s
  · exact exec_cfgw_of_readOnly (r := .txStatus) rfl data s

/-- Settles O23: an index outside the list is no register's (`csrOfIndex_eq_none`), and both commands answer it alike. -/
theorem undefinedIndexRaisesBadCsr : Obligations.UndefinedIndexRaisesBadCsr := by
  unfold Obligations.UndefinedIndexRaisesBadCsr
  intro s csr data hcsr
  have hnone : csrOfIndex csr = none := (csrOfIndex_eq_none csr).mpr hcsr
  exact ⟨exec_cfgw_of_undefined hnone data s, exec_cfgr_of_undefined hnone s⟩

/-- Settles O24: each read is the register under its mask, and the mask of a status register keeps every bit. -/
theorem cfgrReturnsTheRegister : Obligations.CfgrReturnsTheRegister := by
  unfold Obligations.CfgrReturnsTheRegister
  intro s
  exact ⟨exec_cfgr_of_csrRead (csrRead_rxMaxLen s.csr), exec_cfgr_of_csrRead (csrRead_rxCtrl s.csr),
    exec_cfgr_of_csrRead (csrRead_txMaxPkt s.csr), exec_cfgr_of_csrRead (csrRead_txCtrl s.csr),
    exec_cfgr_of_csrRead (csrRead_rxStatus s.csr), exec_cfgr_of_csrRead (csrRead_txStatus s.csr)⟩

end Sys2Proof.Machine
end

section
/-! PROOFS. An outcome other than `OK` is precise (60_exceptions.md R230, R239): a command that ends so does it by raising a
code, by discarding its transfer or by failing its transmission, and each of these three is precise. -/

namespace Sys2Proof.Machine

/-- From `s` to `t` no output is made, the response carries data 0 and a code of 30_encoding.md R76, and of the registers at
most the status register of the code's class changes (60_exceptions.md R230, R239). The host's side is not spoken of. -/
def EndsPrecisely (s t : State) : Prop :=
  t.fs = s.fs ∧ t.wo = s.wo ∧ t.params = s.params ∧ t.rsp.data = 0 ∧ t.rsp.code.toNat ≤ 8 ∧
  (t.rsp.code.toNat ≤ 5 → t.csr = s.csr) ∧
  (t.rsp.code = 6 → t.csr = { s.csr with rxStatus := t.csr.rxStatus }) ∧
  (t.rsp.code = 7 ∨ t.rsp.code = 8 → t.csr = { s.csr with txStatus := t.csr.txStatus })

/-! ## The three endings -/

theorem codeBits_toNat_le (c : RspCode) : (codeBits c).toNat ≤ 8 := by
  cases c <;> decide

theorem endsPrecisely_raiseCode (c : RspCode) (s : State) : EndsPrecisely s (raiseCode c s) :=
  ⟨rfl, rfl, rfl, rfl, codeBits_toNat_le c, fun _ => rfl, fun _ => rfl, fun _ => rfl⟩

theorem endsPrecisely_discardTransfer (r : Reason) (s : State) : EndsPrecisely s (discardTransfer r s) := by
  rw [discardTransfer_eq]
  exact ⟨rfl, rfl, rfl, rfl, codeBits_toNat_le .rxDiscard, by simp, fun _ => rfl, by simp⟩

theorem failCode_toNat (f : TxFailure) : 7 ≤ (codeBits (failCode f)).toNat := by
  cases f <;> decide

theorem endsPrecisely_failTransmit (f : TxFailure) (s : State) : EndsPrecisely s (failTransmit f s) := by
  have hcode := failCode_toNat f
  rw [failTransmit_eq]
  refine ⟨rfl, rfl, rfl, rfl, codeBits_toNat_le _, fun h => ?_, fun h => ?_, fun _ => rfl⟩
  · exact absurd (hcode.trans h) (by decide)
  · exact absurd (h ▸ hcode : 7 ≤ (6 : BitVec 4).toNat) (by decide)

/-! ## Every command -/

section
variable {s t : State}

theorem exec_cfgw_endsPrecisely {i : BitVec 8} {d : Word} (h : exec (.cfgw i d) s = .next t) (hcode : t.rsp.code ≠ 0) :
    EndsPrecisely s t := by
  obtain ⟨-, rfl⟩ | ⟨r, -, -, rfl⟩ | ⟨r, -, -, rfl⟩ := exec_cfgw_cases i d s t h
  · exact endsPrecisely_raiseCode .badCsr s
  · exact endsPrecisely_raiseCode .roWrite s
  · exact absurd rfl hcode

theorem exec_cfgr_endsPrecisely {i : BitVec 8} (h : exec (.cfgr i) s = .next t) (hcode : t.rsp.code ≠ 0) :
    EndsPrecisely s t := by
  obtain ⟨-, rfl⟩ | ⟨r, -, rfl⟩ := exec_cfgr_cases i s t h
  · exact endsPrecisely_raiseCode .badCsr s
  · exact absurd rfl hcode

/-- `RXD` raises or discards from the state in which the host's buffer holds the transfer; a delivery is `OK`. -/
theorem exec_rxd_endsPrecisely {b : List Byte} (h : exec (.rxd b) s = .next t) (hcode : t.rsp.code ≠ 0) :
    EndsPrecisely s t := by
  obtain ⟨-, -, rfl⟩ := (exec_rxd_next_iff b s t).mp h
  obtain ⟨-, hcmd⟩ | ⟨-, r, -, hcmd⟩ | ⟨-, -, -, hcmd⟩ := rxdCommand_cases b (holdTransfer b s) <;> rw [hcmd] at hcode ⊢
  · exact endsPrecisely_raiseCode .badConfig (holdTransfer b s)
  · exact endsPrecisely_discardTransfer r (holdTransfer b s)
  · exact absurd rfl hcode

/-- `TXE` raises or fails from a state that differs from the first one on the host's side only; a frame sent is `OK`. -/
theorem exec_txe_endsPrecisely {v : Bool} {mss tci : BitVec 16} {segs : List (List Byte)} {hr tr : Nat}
    (h : exec (.txe v mss tci segs hr tr) s = .next t) (hcode : t.rsp.code ≠ 0) : EndsPrecisely s t := by
  obtain ⟨-, -, -, rfl⟩ := (exec_txe_next_iff v mss tci segs hr tr s t).mp h
  obtain ⟨-, hcmd⟩ | ⟨-, -, hcmd⟩ | ⟨-, -, -, _, _, s1, rfl, ⟨f, hcmd⟩ | hcmd⟩ :=
    txeCommand_cases v mss tci segs hr tr (useSegments segs s) <;> rw [hcmd] at hcode ⊢
  · exact endsPrecisely_raiseCode .badConfig (useSegments segs s)
  · exact endsPrecisely_raiseCode .badOperand (useSegments segs s)
  · exact endsPrecisely_failTransmit f _
  · exact absurd rfl hcode

theorem exec_endsPrecisely {i : Instr} (h : exec i s = .next t) (hcode : t.rsp.code ≠ 0) : EndsPrecisely s t := by
  cases i with
  | cfgw csr data => exact exec_cfgw_endsPrecisely h hcode
  | cfgr csr => exact exec_cfgr_endsPrecisely h hcode
  | rxd b => exact exec_rxd_endsPrecisely h hcode
  | txe v mss tci segs hr tr => exact exec_txe_endsPrecisely h hcode

end

/-- Settles O16: a step on a command raises `ILLEGAL_CMD` or runs the decoded command, and both end precisely; taking the
command from the stream and moving the index on touch nothing `EndsPrecisely` speaks of. -/
theorem errorsMakeNoPartialOutput : Obligations.ErrorsMakeNoPartialOutput := by
  unfold Obligations.ErrorsMakeNoPartialOutput
  intro s t p rest hpending hstep hcode
  obtain ⟨hnone, -⟩ | ⟨_, hreset, -⟩ | ⟨_, rest', _, -, -, rfl⟩ | ⟨_, rest', i, u, -, -, hexec, rfl⟩ := step_cases s t hstep
  · simp [hpending] at hnone
  · simp [hpending] at hreset
  · exact endsPrecisely_raiseCode .illegalCmd s
  · have hu : EndsPrecisely (setPending rest' s) u := exec_endsPrecisely hexec hcode
    exact hu

end Sys2Proof.Machine
end

section
/-! PROOFS. The encoder against the decoder (30_encoding.md R78, R87), and the words of the assembler forms (R86 to R88). -/

namespace Sys2Proof.Machine

/-! ## Decoding what the encoder wrote, and encoding what the decoder read -/

theorem decode_encode (i : Instr) : decode (encode i) = .ok i := by
  rw [decode_ok_iff]
  cases i with
  | cfgw csr data =>
    obtain ⟨hrsv, hv, hcsr, hopc⟩ := fields_mkCw 0 false csr 1
    exact ⟨hrsv, .inl ⟨hopc, hv, by rw [encode, hcsr]⟩⟩
  | cfgr csr =>
    obtain ⟨hrsv, hv, hcsr, hopc⟩ := fields_mkCw 0 false csr 2
    exact ⟨hrsv, .inr (.inl ⟨hopc, hv, by rw [encode, hcsr]⟩)⟩
  | rxd b =>
    obtain ⟨hrsv, hv, hcsr, hopc⟩ := fields_mkCw 0 false 0 3
    exact ⟨hrsv, .inr (.inr (.inl ⟨hopc, hv, hcsr, rfl⟩))⟩
  | txe v mss tci segs hr tr =>
    obtain ⟨hrsv, hv, hcsr, hopc⟩ := fields_mkCw 0 v 0 4
    obtain ⟨hmss, htci⟩ := fields_op0 tci mss
    exact ⟨hrsv, .inr (.inr (.inr ⟨hopc, hcsr, by simp only [encode, hv, hmss, htci]⟩))⟩

theorem mkCw_eq_of_fields {cw : Word} {rsv : BitVec 19} {v : Bool} {csr : BitVec 8} {opc : BitVec 4}
    (hrsv : cwRsv cw = rsv) (hv : cwV cw = v) (hcsr : cwCsr cw = csr) (hopc : cwOpc cw = opc) :
    mkCw rsv v csr opc = cw := by
  rw [← hrsv, ← hv, ← hcsr, ← hopc, mkCw_fields]

/-- Settles O1: the fields of an encoded word are those the encoder put there (`decode_encode`), and a decoded word is made of
the fields its command was read from, as is the operand word of a `TXE`. -/
theorem decodeEncodeAgree : Obligations.DecodeEncodeAgree := by
  unfold Obligations.DecodeEncodeAgree
  refine ⟨decode_encode, fun p i hdec => ?_⟩
  obtain ⟨hrsv, ⟨hopc, hv, rfl⟩ | ⟨hopc, hv, rfl⟩ | ⟨hopc, hv, hcsr, rfl⟩ | ⟨hopc, hcsr, rfl⟩⟩ := (decode_ok_iff p i).mp hdec
  · exact ⟨mkCw_eq_of_fields hrsv hv rfl hopc, rfl⟩
  · exact ⟨mkCw_eq_of_fields hrsv hv rfl hopc, trivial⟩
  · exact ⟨mkCw_eq_of_fields hrsv hv hcsr hopc, rfl⟩
  · exact ⟨mkCw_eq_of_fields hrsv rfl hcsr hopc, op0_fields p.ops.op0, rfl, rfl, rfl⟩

/-- Settles O4: each of the five words is evaluated. -/
theorem sampleWordsDecode : Obligations.SampleWordsDecode := by
  unfold Obligations.SampleWordsDecode
  decide

/-! ## The assembler's words -/

/-- The operand word of a `TXE`: the tag shifted above the segment size (30_encoding.md R86). -/
theorem op0_eq_shiftLeft_or (t m : BitVec 16) : (t ++ m : Word) = (t.setWidth 32 <<< 16) ||| m.setWidth 32 := by
  rw [BitVec.append_def, BitVec.shiftLeftZeroExtend_eq, BitVec.setWidth'_eq]

/-- The word of a command without tag: the register index above the opcode (30_encoding.md R71, R86). -/
theorem mkCw_eq_shiftLeft_or (csr : BitVec 8) (opc : BitVec 4) :
    mkCw 0 false csr opc = (csr.setWidth 32 <<< 4) ||| opc.setWidth 32 := by
  have hcsr := csr.isLt
  have hopc := opc.isLt
  have hindex : (csr.setWidth 32 <<< 4 : Word).toNat = csr.toNat <<< 4 := by
    rw [BitVec.toNat_shiftLeft, BitVec.toNat_setWidth, Nat.mod_eq_of_lt (by omega), Nat.shiftLeft_eq]
    omega
  refine BitVec.eq_of_toNat_eq ?_
  rw [mkCw_toNat, BitVec.toNat_or, hindex, BitVec.toNat_setWidth, Nat.mod_eq_of_lt (by omega),
    ← Nat.shiftLeft_add_eq_or_of_lt hopc, Nat.shiftLeft_eq, Bool.toNat_false]
  simp only [BitVec.ofNat_eq_ofNat, BitVec.toNat_ofNat]
  omega

/-- A register operand, by name or by number, stands for its index (30_encoding.md R86). -/
theorem asmCsrIndex_eq {r : AsmCsr} {i : BitVec 8}
    (h : r = .number i ∨ (r, i) ∈ ([(.name .rxMaxLen, 0x00), (.name .rxCtrl, 0x01), (.name .txMaxPkt, 0x02),
      (.name .txCtrl, 0x03), (.name .rxStatus, 0x08), (.name .txStatus, 0x09)] : List (AsmCsr × BitVec 8))) :
    asmCsrIndex r = i := by
  obtain rfl | h := h
  · rfl
  · simp only [List.mem_cons, Prod.mk.injEq, List.not_mem_nil, or_false] at h
    obtain ⟨rfl, rfl⟩ | ⟨rfl, rfl⟩ | ⟨rfl, rfl⟩ | ⟨rfl, rfl⟩ | ⟨rfl, rfl⟩ | ⟨rfl, rfl⟩ := h <;> rfl

section
variable {table : List (String × List Byte)}

/-- A buffer operand, by its bytes or by a name of the table, stands for its bytes (30_encoding.md R86). -/
theorem asmBytes_eq_some {x : AsmBuffer} {b : List Byte}
    (h : x = .bytes b ∨ ∃ label, x = .named label ∧ table.lookup label = some b) : asmBytes table x = some b := by
  obtain rfl | ⟨label, rfl, hlabel⟩ := h
  · rfl
  · exact hlabel

theorem mapM_asmBytes_eq_some {xs : List AsmBuffer} {bs : List (List Byte)}
    (h : List.Forall₂ (fun x b => x = .bytes b ∨ ∃ label, x = .named label ∧ table.lookup label = some b) xs bs) :
    xs.mapM (asmBytes table) = some bs := by
  induction h with
  | nil => rfl
  | cons hx _ ih => simp only [List.mapM_cons, asmBytes_eq_some hx, ih]; rfl

end

theorem getD_margin {o : Option Nat} {margin default : Nat} (h : o = some margin ∨ o = none ∧ margin = default) :
    o.getD default = margin := by
  obtain rfl | ⟨rfl, rfl⟩ := h <;> rfl

/-- Settles O5: each operand form stands for the operand named (`asmCsrIndex_eq`, `asmBytes_eq_some`, `getD_margin`), and the
encoder's concatenations are the shifts of R86. -/
theorem syntaxIsEncodedAsStated : Obligations.SyntaxIsEncodedAsStated := by
  unfold Obligations.SyntaxIsEncodedAsStated
  intro table r i value x b xs bs m t ohr otr hr tr hreg hx hxs hohr hotr
  have hseg := mapM_asmBytes_eq_some hxs
  refine ⟨?_, ?_, ?_, ?_, ?_⟩
  · simp only [assemble, asmInstrs, asmCsrIndex_eq hreg, Option.map_some, List.map_cons, List.map_nil, encode,
      mkCw_eq_shiftLeft_or]
    rfl
  · simp only [assemble, asmInstrs, asmCsrIndex_eq hreg, Option.map_some, List.map_cons, List.map_nil, encode,
      mkCw_eq_shiftLeft_or]
    rfl
  · simp only [assemble, asmInstrs, asmBytes_eq_some hx, Option.map_some, List.map_cons, List.map_nil, encode]
    rfl
  · have hcw : mkCw 0 true 0 4 = 0x1004 := by decide
    simp only [assemble, asmInstrs, hseg, getD_margin hohr, getD_margin hotr, Option.map_some, List.map_cons, List.map_nil,
      encode, Option.isSome_some, Option.getD_some, hcw, op0_eq_shiftLeft_or]
  · have hcw : mkCw 0 false 0 4 = 0x0004 := by decide
    have hop0 : ((0 : BitVec 16) ++ m : Word) = m.setWidth 32 := by rw [op0_eq_shiftLeft_or]; simp
    simp only [assemble, asmInstrs, hseg, getD_margin hohr, getD_margin hotr, Option.map_some, List.map_cons, List.map_nil,
      encode, Option.isSome_none, Option.getD_none, hcw, hop0]

/-- Settles O6: the four indices are those of the registers named, and each word is the index above the opcode. -/
theorem cfginitExpandsToFourWrites : Obligations.CfginitExpandsToFourWrites := by
  unfold Obligations.CfginitExpandsToFourWrites
  intro table maxlen csum maxpkt sg
  exact ⟨rfl, rfl⟩

end Sys2Proof.Machine
end

section
/-! PROOFS. What a control command leaves alone and what the next command reads (42_control.md sections 1 and 2,
20_memory.md R61): of the registers a write changes the one it names, and only under its mask. -/

namespace Sys2Proof.Machine

/-! ## One register is written -/

theorem csrIndex_injective : Function.Injective csrIndex := fun r q h => by
  have hsome : csrOfIndex (csrIndex r) = some q := (csrOfIndex_eq_some _ q).mpr h
  exact Option.some.inj ((csrOfIndex_csrIndex r).symm.trans hsome)

/-- What each register holds after a write to `r`. -/
theorem csrWord_csrWrite (c : Csr) (r q : CsrName) (v : Word) :
    csrWord (csrWrite c r v) q = if q = r then v &&& csrMask r else csrWord c q := by
  cases r <;> cases q <;> rfl

theorem csrWord_csrWrite_of_ne {r q : CsrName} (h : q ≠ r) (c : Csr) (v : Word) :
    csrWord (csrWrite c r v) q = csrWord c q := by
  rw [csrWord_csrWrite, if_neg h]

/-- A write of a configuration register leaves the status registers to their engines (10_state.md R23). -/
theorem csrWrite_status_of_writable {r : CsrName} (h : csrReadOnly r = false) (c : Csr) (v : Word) :
    (csrWrite c r v).rxStatus = c.rxStatus ∧ (csrWrite c r v).txStatus = c.txStatus := by
  have kept : ∀ q, csrReadOnly q = true → csrWord (csrWrite c r v) q = csrWord c q := fun q hq =>
    csrWord_csrWrite_of_ne (fun hqr => by rw [hqr, h] at hq; exact nomatch hq) c v
  exact ⟨kept .rxStatus rfl, kept .txStatus rfl⟩

/-- A second mask changes nothing (10_state.md R23). -/
theorem csrRead_csrWrite_same (c : Csr) (r : CsrName) (v : Word) : csrRead (csrWrite c r v) r = v &&& csrMask r := by
  rw [csrRead, csrWord_csrWrite, if_pos rfl, BitVec.and_assoc, BitVec.and_self]

theorem csrRead_csrWrite_of_ne {r q : CsrName} (h : q ≠ r) (c : Csr) (v : Word) :
    csrRead (csrWrite c r v) q = csrRead c q := by
  rw [csrRead, csrWord_csrWrite_of_ne h, csrRead]

/-! ## What a control command can do -/

/-- A `CFGW` writes the register it names, or ends in an error and changes `RSP` only, in which case it names no writable
register (42_control.md R201 to R203). -/
theorem exec_cfgw_written_or_error {i : BitVec 8} {d : Word} {s t : State} (h : exec (.cfgw i d) s = .next t) :
    (∃ r, i = csrIndex r ∧ csrReadOnly r = false ∧ t = { s with csr := csrWrite s.csr r d, rsp := ⟨0, 0⟩ }) ∨
    ((∀ r, csrReadOnly r = false → i ≠ csrIndex r) ∧ t.rsp.code ≠ 0 ∧ t = { s with rsp := t.rsp }) := by
  obtain ⟨hnone, rfl⟩ | ⟨r, rfl, hro, rfl⟩ | ⟨r, rfl, hrw, rfl⟩ := exec_cfgw_cases i d s t h
  · refine .inr ⟨?_, (by decide : codeBits .badCsr ≠ 0), rfl⟩
    rintro r - rfl
    exact absurd (hnone.symm.trans (csrOfIndex_csrIndex r)) (by simp)
  · refine .inr ⟨fun q hq hrq => ?_, (by decide : codeBits .roWrite ≠ 0), rfl⟩
    rw [← csrIndex_injective hrq, hro] at hq
    exact absurd hq (by decide)
  · exact .inl ⟨r, rfl, hrw, rfl⟩

theorem exec_cfgr_frame {i : BitVec 8} {s t : State} (h : exec (.cfgr i) s = .next t) : t = { s with rsp := t.rsp } := by
  obtain ⟨-, rfl⟩ | ⟨r, -, rfl⟩ := exec_cfgr_cases i s t h <;> rfl

/-- Settles O26: an error changes `RSP` only, and a write only the register whose index is given, which is never a status
register. -/
theorem controlCommandsFrame : Obligations.ControlCommandsFrame := by
  unfold Obligations.ControlCommandsFrame
  refine fun s t csr data => ⟨fun h => ?_, exec_cfgr_frame⟩
  obtain ⟨r, rfl, hrw, rfl⟩ | ⟨-, -, ht⟩ := exec_cfgw_written_or_error h
  · have kept : ∀ q, csrIndex r ≠ csrIndex q → csrWord (csrWrite s.csr r data) q = csrWord s.csr q :=
      fun q hq => csrWord_csrWrite_of_ne (fun hqr => hq (congrArg csrIndex hqr.symm)) s.csr data
    obtain ⟨hrx, htx⟩ := csrWrite_status_of_writable hrw s.csr data
    exact ⟨rfl, hrx, htx, kept .rxMaxLen, kept .rxCtrl, kept .txMaxPkt, kept .txCtrl⟩
  · rw [ht]
    exact ⟨rfl, rfl, rfl, fun _ => rfl, fun _ => rfl, fun _ => rfl, fun _ => rfl⟩

/-! ## What the next command reads -/

theorem low16_and_mask (w : Word) : ((w &&& 0x0000FFFF).extractLsb' 0 16).toNat = w.toNat % 2 ^ 16 := by
  have hmask : (0x0000FFFF : Word).toNat = 2 ^ 16 - 1 := rfl
  rw [BitVec.extractLsb'_toNat, BitVec.toNat_and, hmask, Nat.and_two_pow_sub_one_eq_mod, Nat.shiftRight_zero, Nat.mod_mod]

theorem bit0_and_mask (w : Word) : (w &&& 0x00000001).getLsbD 0 = w.getLsbD 0 := by simp

/-- Settles O21: the snapshot reads the four configuration registers, of which the write changed the one it names. -/
theorem cfgwIsSeenByTheNextSnapshot : Obligations.CfgwIsSeenByTheNextSnapshot := by
  unfold Obligations.CfgwIsSeenByTheNextSnapshot
  intro s t csr data h
  rw [takeSnapshot_eq]
  obtain ⟨r, rfl, hrw, rfl⟩ | ⟨hne, -, ht⟩ := exec_cfgw_written_or_error h
  · have hmax := low16_and_mask data
    have hbit := bit0_and_mask data
    cases r with
    | rxMaxLen => exact congrArg (Snapshot.mk · _ _ _) hmax
    | rxCtrl => exact congrArg (Snapshot.mk _ · _ _) hbit
    | txMaxPkt => exact congrArg (Snapshot.mk _ _ · _) hmax
    | txCtrl => exact congrArg (Snapshot.mk _ _ _ ·) hbit
    | rxStatus => exact nomatch hrw
    | txStatus => exact nomatch hrw
  · have hne0 : csr ≠ 0x00 := hne .rxMaxLen rfl
    have hne1 : csr ≠ 0x01 := hne .rxCtrl rfl
    have hne2 : csr ≠ 0x02 := hne .txMaxPkt rfl
    have hne3 : csr ≠ 0x03 := hne .txCtrl rfl
    rw [if_neg hne0, if_neg hne1, if_neg hne2, if_neg hne3, ht]
    rfl

/-- The mask of a writable register, by its index (42_control.md R201). -/
theorem csrMask_of_writable {r : CsrName} (h : csrReadOnly r = false) :
    csrMask r = if csrIndex r = 0x00 ∨ csrIndex r = 0x02 then 0x0000FFFF else 0x00000001 := by
  cases r with
  | rxMaxLen | rxCtrl | txMaxPkt | txCtrl => rfl
  | rxStatus | txStatus => exact nomatch h

/-- Settles O25: the register written reads back under its mask, and every other register, as every undefined index, reads as
before. -/
theorem readAfterWriteOfARegister : Obligations.ReadAfterWriteOfARegister := by
  unfold Obligations.ReadAfterWriteOfARegister
  intro s t u u0 w r data hw hok hr hr0
  obtain ⟨q, rfl, hrw, rfl⟩ | ⟨-, herr, -⟩ := exec_cfgw_written_or_error hw
  case inr => exact absurd hok herr
  rcases hidx : csrOfIndex r with _ | p
  · rw [exec_cfgr_of_undefined hidx] at hr hr0
    obtain rfl := Host.Outcome.next.inj hr
    obtain rfl := Host.Outcome.next.inj hr0
    refine ⟨fun _ => rfl, ?_⟩
    rintro rfl
    exact absurd (hidx.symm.trans (csrOfIndex_csrIndex q)) (by simp)
  · obtain rfl := (csrOfIndex_eq_some r p).mp hidx
    rw [exec_cfgr_csrIndex] at hr hr0
    obtain rfl := Host.Outcome.next.inj hr
    obtain rfl := Host.Outcome.next.inj hr0
    refine ⟨fun hne => ?_, fun heq => ?_⟩
    · have hread := csrRead_csrWrite_of_ne (fun hpq => hne (congrArg csrIndex hpq)) s.csr data
      simp only [respond_rsp, hread]
    · obtain rfl := csrIndex_injective heq
      rw [respond_rsp, csrRead_csrWrite_same, csrMask_of_writable hrw]
      rfl

end Sys2Proof.Machine
end

section
/-! PROOFS. What an `RXD` does to the block as one record of its parameters, its configuration and its transfer
(40_rx_reassembly.md R110, R131), and what it leaves alone (20_memory.md R68, R69). -/

namespace Sys2Proof.Machine

/-- What an `RXD` gives the block: the records for `FS`, the word of `RX_STATUS` where it writes one, and the response. -/
structure RxEffect where
  frames : List Frame
  status : Option Word
  rsp : Response

/-- The effect of an `RXD` (40_rx_reassembly.md R131): it depends on the parameters, the configuration and the transfer only. -/
def rxEffect (p : Params) (c : Snapshot) (b : List Byte) : RxEffect :=
  if c.maxLen = 0 then ⟨[], none, ⟨4, 0⟩⟩
  else match validateTransfer p.layout b with
    | .error r => ⟨[], some (discardStatus r), ⟨6, 0⟩⟩
    | .ok slots =>
      ⟨deliveredFrames p c b slots,
        some (rxStatusWord 0 false true (deliveredFrames p c b slots).length
          (slots.length - (deliveredFrames p c b slots).length)),
        ⟨0, BitVec.ofNat 32 (deliveredFrames p c b slots).length⟩⟩

/-- The state an effect leads to, with the transfer in the host's buffer (20_memory.md R68, R69). -/
def RxEffect.apply (e : RxEffect) (b : List Byte) (s : State) : State :=
  { s with
    fs := s.fs ++ e.frames
    csr := { s.csr with rxStatus := e.status.getD s.csr.rxStatus }
    rsp := e.rsp
    host := { s.host with rxBuf := b } }

theorem rxdCommand_eq_apply (b : List Byte) (s : State) :
    rxdCommand b (holdTransfer b s) = (rxEffect s.params (takeSnapshot s.csr) b).apply b s := by
  rw [rxdCommand, holdTransfer_csr, holdTransfer_params, rxEffect]
  by_cases hcfg : (takeSnapshot s.csr).maxLen = 0
  · simp only [if_pos hcfg, RxEffect.apply, List.append_nil]
    rfl
  · simp only [if_neg hcfg]
    rcases validateTransfer s.params.layout b with r | slots
    · simp only [discardTransfer_eq, rxStatusWord_discard, RxEffect.apply, List.append_nil]
      rfl
    · simp only [deliverTransfer_eq]
      rfl

theorem exec_rxd_next_iff_effect (b : List Byte) (s t : State) :
    exec (.rxd b) s = .next t ↔
      b.length < 2 ^ 32 ∧ layoutValid s.params.layout = true ∧ t = (rxEffect s.params (takeSnapshot s.csr) b).apply b s := by
  rw [exec_rxd_next_iff, rxdCommand_eq_apply]

theorem exec_rxd_eq_apply {b : List Byte} {s t : State} (h : exec (.rxd b) s = .next t) :
    t = (rxEffect s.params (takeSnapshot s.csr) b).apply b s := by
  obtain ⟨-, -, ht⟩ := (exec_rxd_next_iff_effect b s t).mp h
  exact ht

/-- Settles O37: every effect of an `RXD` is applied to those fields only. -/
theorem rxdFrame : Obligations.RxdFrame := by
  unfold Obligations.RxdFrame
  intro s t b h
  rw [exec_rxd_eq_apply h]
  exact ⟨rfl, _, rfl⟩

end Sys2Proof.Machine
end

section
/-! PROOFS. Which transfers an `RXD` discards, and for which reason (40_rx_reassembly.md R111, R115, R132). -/

namespace Sys2Proof.Machine

@[simp] theorem rxReason_discardStatus (r : Reason) : rxReason (discardStatus r) = reasonBits r := by
  rw [← rxStatusWord_discard, rxReason_word]

@[simp] theorem rxDiscardBit_discardStatus (r : Reason) : rxDiscardBit (discardStatus r) = true := by
  rw [← rxStatusWord_discard, rxDiscardBit_word]

/-- Past its configuration check an `RXD` discards its transfer or delivers it, and it delivers the consistent ones. -/
theorem exec_rxd_discards_or_delivers {s t : State} {b : List Byte} (hcfg : cfgMaxLen s ≠ 0)
    (h : exec (.rxd b) s = .next t) :
    (¬ transferConsistent s.params.layout b ∧ ∃ r, validateTransfer s.params.layout b = .error r ∧ t.fs = s.fs ∧
      t.rsp = ⟨6, 0⟩ ∧ t.csr.rxStatus = discardStatus r) ∨
    (transferConsistent s.params.layout b ∧ t.rsp.code = 0 ∧ ∃ dl sk, t.csr.rxStatus = rxStatusWord 0 false true dl sk) := by
  obtain ⟨-, -, rfl⟩ := (exec_rxd_next_iff b s t).mp h
  obtain ⟨hzero, -⟩ | ⟨-, r, herr, hcmd⟩ | ⟨-, hcons, -, hcmd⟩ := rxdCommand_cases b (holdTransfer b s)
  · exact absurd hzero hcfg
  · have hincons : ¬ transferConsistent s.params.layout b := fun hcons => by
      obtain ⟨slots, hok⟩ := (validateTransfer_ok_iff_consistent _ _).mpr hcons
      exact nomatch herr.symm.trans hok
    refine .inl ⟨hincons, r, herr, ?_⟩
    rw [hcmd, discardTransfer_eq, rxStatusWord_discard]
    exact ⟨rfl, rfl, rfl⟩
  · refine .inr ⟨hcons, ?_⟩
    rw [hcmd, deliverTransfer_eq]
    exact ⟨rfl, _, _, rfl⟩

/-- Settles O31: a discard appends no frame and answers {6, 0}, a delivery answers `OK`. -/
theorem rxdIsAllOrNothing : Obligations.RxdIsAllOrNothing := by
  unfold Obligations.RxdIsAllOrNothing
  intro s t b hcfg h
  obtain ⟨hincons, r, -, hfs, hrsp, hstatus⟩ | ⟨hcons, hok, -⟩ := exec_rxd_discards_or_delivers hcfg h
  · refine ⟨⟨fun hok => ?_, fun hcons => absurd hcons hincons⟩, fun _ => ⟨hfs, hrsp, ?_⟩⟩
    · rw [hrsp] at hok; exact absurd hok (by decide)
    · rw [hstatus, rxDiscardBit_discardStatus]
  · exact ⟨⟨fun _ => hcons, fun _ => hok⟩, fun hincons => absurd hcons hincons⟩

theorem reasonBits_eq_three_iff (r : Reason) : reasonBits r = 3 ↔ r = .offsetRange := by
  cases r <;> decide

/-- Settles O34: a discard has the reason of a check that failed, which is never the range check, and a delivery has none. -/
theorem offsetRangeIsUnreachable : Obligations.OffsetRangeIsUnreachable := by
  unfold Obligations.OffsetRangeIsUnreachable
  intro s t b h hcode
  have hcfg : cfgMaxLen s ≠ 0 := fun hzero => by
    obtain ⟨-, -, rfl⟩ := (exec_rxd_next_iff b s t).mp h
    have hcmd : rxdCommand b (holdTransfer b s) = raiseCode .badConfig (holdTransfer b s) :=
      rxdCommand_of_maxLen_zero b hzero
    rw [hcmd] at hcode
    exact hcode rfl
  obtain ⟨-, r, herr, -, -, hstatus⟩ | ⟨-, -, dl, sk, hstatus⟩ := exec_rxd_discards_or_delivers hcfg h
  · rw [hstatus, rxReason_discardStatus]
    intro hthree
    rw [(reasonBits_eq_three_iff r).mp hthree] at herr
    exact validateTransfer_ne_offsetRange _ _ herr
  · rw [hstatus, rxReason_word]
    decide

/-! ## Odd and overlong transfers -/

theorem consumedUpTo_mod (ds : List Desc) (k : Nat) : consumedUpTo ds k % 8 = 0 := by
  refine Nat.mod_eq_zero_of_dvd (List.dvd_sum fun x hx => ?_)
  obtain ⟨d, -, rfl⟩ := List.mem_map.mp hx
  exact Nat.dvd_of_mod_eq_zero (roundUp8_mod d.len)

/-- The longest transfer whose offset can be right: a 19-bit offset and 8192 words of 8 bytes (40_rx_reassembly.md R132). -/
theorem validateTransfer_of_overlong {lay : Layout} (hlay : layoutValid lay = true) {b : List Byte}
    (h : 589823 < b.length) : validateTransfer lay b = .error .offsetMismatch := by
  have hpc := packetCount_lt lay hlay (trailerWord b)
  have hoff := trailerOffset_lt lay hlay (trailerWord b)
  exact validateTransfer_of_offsetMismatch (by omega) (by omega)

/-- A walk that does not end at a multiple of 8 fails (40_rx_reassembly.md R120, R121). -/
theorem walkSlots_of_odd {off : Nat} (hoff : off % 8 ≠ 0) (ds : List Desc) :
    walkSlots off ds 0 = .error .overrun ∨ walkSlots off ds 0 = .error .sumMismatch := by
  by_cases hover : ∃ i < ds.length, off < consumedUpTo ds (i + 1)
  · exact .inl (walkSlots_of_overrun hover)
  · refine .inr (walkSlots_of_sumMismatch (fun i hi => Nat.not_lt.mp fun h => hover ⟨i, hi, h⟩) ?_)
    rintro rfl
    exact hoff (consumedUpTo_mod ds ds.length)

/-- The reason of a transfer whose length is no multiple of 8, and that has a trailer word (40_rx_reassembly.md R132,
log 21). -/
theorem validateTransfer_of_odd {lay : Layout} {b : List Byte} (h8 : 8 ≤ b.length) (hodd : b.length % 8 ≠ 0) :
    ∃ r, validateTransfer lay b = .error r ∧
      (packetCount lay (trailerWord b) ≠ 0 → reasonBits r ∈ ([2, 5, 6] : List (BitVec 4))) ∧
      (packetCount lay (trailerWord b) = 0 →
        reasonBits r = if trailerOffset lay (trailerWord b) = b.length - 8 then 4 else 2) := by
  by_cases hL : b.length = trailerOffset lay (trailerWord b) + 8 * (packetCount lay (trailerWord b) + 1)
  · rw [validateTransfer_of_offset h8 hL]
    by_cases hpc : packetCount lay (trailerWord b) = 0
    · refine ⟨.zeroCount, if_pos hpc, fun h => absurd hpc h, fun _ => ?_⟩
      rw [if_pos (by omega)]
      rfl
    · rw [if_neg hpc]
      have hoff : trailerOffset lay (trailerWord b) % 8 ≠ 0 := by omega
      obtain hwalk | hwalk := walkSlots_of_odd hoff (transferDescs lay b)
      · exact ⟨.overrun, hwalk, fun _ => by decide, fun h => absurd h hpc⟩
      · exact ⟨.sumMismatch, hwalk, fun _ => by decide, fun h => absurd h hpc⟩
  · refine ⟨.offsetMismatch, validateTransfer_of_offsetMismatch h8 (by omega), fun _ => by decide, fun hpc => ?_⟩
    rw [if_neg (by omega)]
    rfl

/-- Settles O35: an overlong transfer fails the offset check; an odd one fails a check whose reason `validateTransfer_of_odd`
names, or the length check. -/
theorem oddAndOverlongTransfersAreDiscarded : Obligations.OddAndOverlongTransfersAreDiscarded := by
  unfold Obligations.OddAndOverlongTransfersAreDiscarded
  intro s b hlay hlen hcfg
  refine ⟨fun hlong => exec_rxd_of_validate_error hlay hlen hcfg (validateTransfer_of_overlong hlay hlong),
    fun hodd => ?_⟩
  obtain hshort | h8 := Nat.lt_or_ge b.length 8
  · refine ⟨_, exec_rxd_of_validate_error hlay hlen hcfg (validateTransfer_of_short _ hshort), rfl, rfl,
      fun _ => rxReason_discardStatus .short, ?_, ?_⟩ <;>
      exact fun h8 => absurd hshort (Nat.not_lt.mpr h8)
  · obtain ⟨r, herr, hsome, hnone⟩ := validateTransfer_of_odd (lay := s.params.layout) h8 hodd
    rw [← rxReason_discardStatus] at hsome hnone
    exact ⟨_, exec_rxd_of_validate_error hlay hlen hcfg herr, rfl, rfl, fun hshort => absurd hshort (Nat.not_lt.mpr h8),
      fun _ => hsome, fun _ => hnone⟩

end Sys2Proof.Machine
end

section
/-! PROOFS. Every read of an `RXD` lies within its transfer (20_memory.md R58, 40_rx_reassembly.md R117, R119, R125), and the
bits each wire word is read from under the default layout (30_encoding.md R80, R81). -/

namespace Sys2Proof.Machine

/-- A slot within the data area: its start, its length and the frame it delivers (40_rx_reassembly.md R119, R125). -/
theorem slot_inBounds {ds : List Desc} {off i : Nat} (hi : i < ds.length) (hfit : consumedUpTo ds (i + 1) ≤ off) :
    consumedUpTo ds i + ds[i].len ≤ off := by
  have hsucc := consumedUpTo_succ ds i hi
  have hround := roundUp8_ge ds[i].len
  omega

theorem frameAt_length {s : State} {b : List Byte} {ds : List Desc} {i : Nat} {f : Frame} (hi : i < ds.length)
    (hin : consumedUpTo ds i + ds[i].len ≤ b.length) (hf : frameAt s b ds i = some f) :
    f.data.length = ds[i].len - s.params.rxHwPad := by
  obtain ⟨-, -, rfl⟩ := (frameAt_eq_some_iff s b ds i f).mp hf
  rw [frameOf, slice_length _ _ _ hin]
  exact Nat.add_sub_add_left _ _ _

/-- Settles O33: the offset check puts the descriptors between the data area and the trailer word, and a walk without overrun
puts every slot into the data area. -/
theorem rxdReadsStayInBounds : Obligations.RxdReadsStayInBounds := by
  unfold Obligations.RxdReadsStayInBounds
  refine ⟨fun x => ⟨roundUp8_mod x, roundUp8_ge x, roundUp8_lt x⟩, ?_⟩
  rintro s b _ _ _ h8 rfl rfl rfl
  have hpc := transferDescs_length s.params.layout b
  refine ⟨memRead_length b _ 8 (by omega), fun hL => ⟨hpc, fun i hi => ?_⟩, fun hL hfit i hi => ?_⟩
  · exact ⟨by omega, by omega, memRead_length b _ 8 (by omega), descriptors_getElem? _ _ _ _ _ hi⟩
  · have hin := slot_inBounds hi (hfit i (hpc ▸ hi))
    exact ⟨consumedUpTo_succ _ i hi, hin, by omega, fun f hf => frameAt_length hi (by omega) hf⟩

theorem getField_eq_extractLsb' (lo width : Nat) (w : DWord) : getField ⟨lo, width⟩ w = (w.extractLsb' lo width).toNat := by
  rw [getField, BitVec.extractLsb'_toNat, Nat.shiftRight_eq_div_pow]

theorem getFlag_eq_getLsbD (k : Nat) (w : DWord) : getFlag ⟨k, 1⟩ w = w.getLsbD k := by
  rw [getLsbD_eq_toNat]
  rfl

/-- Settles O38: a field of the default layout is the bits of the table, and the two L4 codes are told apart by their
number. -/
theorem defaultLayoutBitPositions : Obligations.DefaultLayoutBitPositions := by
  unfold Obligations.DefaultLayoutBitPositions
  intro w
  refine ⟨getField_eq_extractLsb' 0 13 w, getField_eq_extractLsb' 13 19 w, ?_⟩
  have hl4 : l4TypeOf defaultLayout (w.extractLsb' 2 3).toNat =
      if w.extractLsb' 2 3 = 1 then .udp else if w.extractLsb' 2 3 = 4 then .tcp else .other := by
    generalize w.extractLsb' 2 3 = code
    revert code
    decide
  simp only [decodeDesc, defaultLayout, getField_eq_extractLsb', getFlag_eq_getLsbD, BitVec.ofNat_toNat, BitVec.setWidth_eq]
  rw [← hl4]
  rfl

end Sys2Proof.Machine
end

section
/-! PROOFS. The padding of a frame and its header as one number (41_tx_framing.md R163 to R165, 30_encoding.md R82). -/

namespace Sys2Proof.Machine

/-! ## The padding -/

theorem eq_basePadding {n p : Nat} (hp : p < 8) (h : (8 + n + p) % 8 = 0) : p = basePadding n := by
  obtain ⟨hlt, hmod⟩ := basePadding_spec n
  omega

/-- The guard fires when header, frame and the padding below 8 fill whole packets (41_tx_framing.md R165). -/
theorem guardFires_iff (n m : Nat) : guardFires n m = true ↔ (8 + n + basePadding n) % m = 0 := by
  rw [guardFires, beq_iff_eq, Nat.add_comm n 8]

/-- Settles O41: only one padding below 8 makes the length a multiple of 8 (`eq_basePadding`), and the guard adds 8 to it. -/
theorem paddingRangeAndGuard : Obligations.PaddingRangeAndGuard := by
  unfold Obligations.PaddingRangeAndGuard
  intro n m _
  obtain ⟨hle, hmod, hguard⟩ := paddingFor_spec n m
  refine ⟨hle, hmod, ⟨fun h => ?_, ?_⟩, ?_, hguard⟩
  · obtain ⟨hlt, hbase⟩ := basePadding_spec n
    exact ⟨basePadding n, hlt, hbase, (guardFires_iff n m).mp h⟩
  · rintro ⟨p, hp, hp8, hpm⟩
    obtain rfl := eq_basePadding hp hp8
    exact (guardFires_iff n m).mpr hpm
  · intro p hp hp8
    obtain rfl := eq_basePadding hp hp8
    rw [paddingFor_eq, Nat.add_comm n 8]

/-! ## The header -/

/-- Writing a field whose bits are all 0 adds the value at its place (00_scope.md R12). -/
theorem setField_toNat_of_clear {f : Field} {w : DWord} (hf : f.lo + f.width ≤ 64) (hclear : getField f w = 0) (v : Nat) :
    (setField f w v).toNat = w.toNat + v % 2 ^ f.width * 2 ^ f.lo := by
  have hbits : ∀ k, f.lo ≤ k → k < f.lo + f.width → w.getLsbD k = false := fun k hlo hhi => by
    have hbit := testBit_getField f w (k - f.lo)
    rw [hclear, Nat.zero_testBit, Nat.add_sub_cancel' hlo] at hbit
    simpa [show k - f.lo < f.width by omega] using hbit.symm
  have hkeep : w &&& ~~~fieldMask f = w := by
    refine BitVec.eq_of_getLsbD_eq fun k hk => ?_
    rw [BitVec.getLsbD_and, BitVec.getLsbD_not, getLsbD_fieldMask]
    by_cases hin : f.lo ≤ k ∧ k < f.lo + f.width
    · rw [hbits k hin.1 hin.2, Bool.false_and]
    · have hout : (decide (f.lo ≤ k) && decide (k < f.lo + f.width)) = false := by rw [← Bool.decide_and, decide_eq_false hin]
      simp [hk, hout]
  have hdisjoint : w &&& BitVec.ofNat 64 (v % 2 ^ f.width * 2 ^ f.lo) = 0#64 := by
    refine BitVec.eq_of_getLsbD_eq fun k hk => ?_
    rw [BitVec.getLsbD_and, BitVec.getLsbD_ofNat, Nat.testBit_mul_two_pow, Nat.testBit_mod_two_pow]
    by_cases hlo : f.lo ≤ k
    · by_cases hhi : k - f.lo < f.width
      · simp [hbits k hlo (by omega)]
      · simp [hhi]
    · simp [hlo]
  have hbound : v % 2 ^ f.width * 2 ^ f.lo < 2 ^ 64 := by
    calc v % 2 ^ f.width * 2 ^ f.lo < 2 ^ f.width * 2 ^ f.lo :=
          Nat.mul_lt_mul_of_pos_right (Nat.mod_lt _ (by positivity)) (by positivity)
      _ = 2 ^ (f.lo + f.width) := by rw [← Nat.pow_add, Nat.add_comm]
      _ ≤ 2 ^ 64 := Nat.pow_le_pow_right (by decide) hf
  rw [setField, hkeep, ← BitVec.add_eq_or_of_and_eq_zero _ _ hdisjoint, BitVec.toNat_add_of_and_eq_zero hdisjoint,
    BitVec.toNat_ofNat, Nat.mod_eq_of_lt hbound]

/-- Fields written one after the other into an empty word, the last of the list first. -/
def writeFields : List (Field × Nat) → DWord
  | [] => 0
  | (f, v) :: rest => setField f (writeFields rest) v

theorem getField_writeFields_apart {g : Field} (hg : g.lo + g.width ≤ 64) (l : List (Field × Nat))
    (h : (l.map Prod.fst).all (fieldsApart g) = true) : getField g (writeFields l) = 0 := by
  induction l with
  | nil => exact getField_zero g
  | cons p rest ih =>
    obtain ⟨f, v⟩ := p
    simp only [List.map_cons, List.all_cons, Bool.and_eq_true] at h
    rw [writeFields, getField_setField_apart f g _ v hg (.inr h.1), ih h.2]

/-- Fields that share no bit add up (00_scope.md R12). -/
theorem writeFields_toNat (l : List (Field × Nat)) (hfit : ∀ p ∈ l, p.1.lo + p.1.width ≤ 64)
    (hapart : allApart (l.map Prod.fst) = true) :
    (writeFields l).toNat = (l.map fun p => p.2 % 2 ^ p.1.width * 2 ^ p.1.lo).sum := by
  induction l with
  | nil => rfl
  | cons p rest ih =>
    obtain ⟨f, v⟩ := p
    simp only [List.map_cons, allApart, Bool.and_eq_true] at hapart
    obtain ⟨hf, hrest⟩ := List.forall_mem_cons.mp hfit
    rw [writeFields, setField_toNat_of_clear hf (getField_writeFields_apart hf rest hapart.1), ih hrest hapart.2,
      List.map_cons, List.sum_cons, Nat.add_comm]

/-- The fields of the header with their values, those that are written (41_tx_framing.md R163 to R165). -/
def headerValues (lay : Layout) (v : Bool) (mss tci : BitVec 16) (n m : Nat) : List (Field × Nat) :=
  (if guardFires n m then [(lay.txhDroppad, 1)] else [])
    ++ (if v then [(lay.txhTci, tci.toNat), (lay.txhVlan, 1)] else [])
    ++ [(lay.txhMss, mss.toNat), (lay.txhLen, n)]

theorem txHeader_eq_writeFields (lay : Layout) (v : Bool) (mss tci : BitVec 16) (n m : Nat) :
    txHeader lay v mss tci n m = writeFields (headerValues lay v mss tci n m) := by
  unfold txHeader headerValues
  cases v <;> cases guardFires n m <;> rfl

theorem fieldsApart_comm (f g : Field) : fieldsApart f g = fieldsApart g f := by
  rw [fieldsApart, fieldsApart, Bool.or_comm]

theorem headerValues_apart {lay : Layout} (hlay : layoutValid lay = true) (v : Bool) (mss tci : BitVec 16) (n m : Nat) :
    allApart ((headerValues lay v mss tci n m).map Prod.fst) = true := by
  have happart := (layoutValid_usable lay hlay).headerApart
  simp only [allApart, headerFields, List.all_cons, List.all_nil, Bool.and_true, Bool.and_eq_true] at happart
  obtain ⟨⟨hLenDrop, hLenVlan, hLenMss, hLenTci⟩, ⟨hDropVlan, hDropMss, hDropTci⟩, ⟨hVlanMss, hVlanTci⟩, hMssTci⟩ := happart
  rw [fieldsApart_comm] at hLenDrop hLenVlan hLenMss hLenTci hVlanTci hMssTci
  cases v <;> cases hg : guardFires n m <;> simp [headerValues, allApart, *]

theorem headerValues_fit {lay : Layout} (hlay : layoutValid lay = true) (v : Bool) (mss tci : BitVec 16) (n m : Nat) :
    ∀ p ∈ headerValues lay v mss tci n m, p.1.lo + p.1.width ≤ 64 := by
  have u := layoutValid_usable lay hlay
  obtain ⟨hwLen, hLen⟩ := u.txhLen
  obtain ⟨hwDrop, hDrop⟩ := u.txhDroppad
  obtain ⟨hwVlan, hVlan⟩ := u.txhVlan
  obtain ⟨hwMss, hMss⟩ := u.txhMss
  obtain ⟨hwTci, hTci⟩ := u.txhTci
  cases v <;> cases hg : guardFires n m <;> simp [headerValues, *]

/-- The header under a usable layout as one number (30_encoding.md R82). -/
theorem txHeader_toNat {lay : Layout} (hlay : layoutValid lay = true) (v : Bool) (mss tci : BitVec 16) (n m : Nat) :
    (txHeader lay v mss tci n m).toNat =
      n % 2 ^ 21 * 2 ^ lay.txhLen.lo + (if guardFires n m then 2 ^ lay.txhDroppad.lo else 0)
        + (if v then 2 ^ lay.txhVlan.lo + tci.toNat * 2 ^ lay.txhTci.lo else 0)
        + mss.toNat % 2 ^ 15 * 2 ^ lay.txhMss.lo := by
  have u := layoutValid_usable lay hlay
  obtain ⟨hwLen, -⟩ := u.txhLen
  obtain ⟨hwDrop, -⟩ := u.txhDroppad
  obtain ⟨hwVlan, -⟩ := u.txhVlan
  obtain ⟨hwMss, -⟩ := u.txhMss
  obtain ⟨hwTci, -⟩ := u.txhTci
  have htci : tci.toNat % 65536 = tci.toNat := Nat.mod_eq_of_lt tci.isLt
  rw [txHeader_eq_writeFields, writeFields_toNat _ (headerValues_fit hlay v mss tci n m)
    (headerValues_apart hlay v mss tci n m)]
  cases v <;> cases hg : guardFires n m <;>
    simp [headerValues, hg, hwLen, hwDrop, hwVlan, hwMss, hwTci, htci] <;> omega

/-- Settles O43: the fields of a usable layout share no bit, so the header is the sum of those written. -/
theorem txHeaderUnderTheDefaultLayout : Obligations.TxHeaderUnderTheDefaultLayout := by
  unfold Obligations.TxHeaderUnderTheDefaultLayout
  intro v mss tci n m hn hmss
  have hLen : defaultLayout.txhLen.lo = 0 := rfl
  have hDrop : defaultLayout.txhDroppad.lo = 28 := rfl
  have hVlan : defaultLayout.txhVlan.lo = 29 := rfl
  have hMss : defaultLayout.txhMss.lo = 32 := rfl
  have hTci : defaultLayout.txhTci.lo = 48 := rfl
  rw [txHeader_toNat defaultLayout_valid, Nat.mod_eq_of_lt hn, Nat.mod_eq_of_lt hmss, hLen, hDrop, hVlan, hMss, hTci,
    Nat.pow_zero, Nat.mul_one]

end Sys2Proof.Machine
end

section
/-! PROOFS. Everything a `TXE` can do, with the draws it makes (41_tx_framing.md R160 to R171, 60_exceptions.md R236, R252):
which resource each failure is for, and what the command leaves alone. -/

namespace Sys2Proof.Machine

/-! ## Draws -/

/-- From `s` to `t` at most `k` of the host's answers are taken, and the counter of free values may move. -/
def AfterDraws (k : Nat) (s t : State) : Prop :=
  ∃ j ≤ k, t = { s with host := { s.host with answers := s.host.answers.drop j }, free := t.free }

theorem AfterDraws.refl (k : Nat) (s : State) : AfterDraws k s s := ⟨0, Nat.zero_le k, rfl⟩

theorem AfterDraws.trans {j k : Nat} {s t u : State} (hst : AfterDraws j s t) (htu : AfterDraws k t u) :
    AfterDraws (j + k) s u := by
  obtain ⟨a, ha, hst⟩ := hst
  obtain ⟨b, hb, htu⟩ := htu
  refine ⟨a + b, Nat.add_le_add ha hb, ?_⟩
  rw [htu, hst, List.drop_drop]

theorem AfterDraws.of_drawAnswer (d : Draw) (s : State) : AfterDraws 1 s (drawAnswer d s).2 := by
  rcases hans : s.host.answers with _ | ⟨a, rest⟩
  · refine ⟨0, Nat.zero_le 1, ?_⟩
    simp only [drawAnswer, hans, List.drop_zero]
    rw [← hans]
  · refine ⟨1, Nat.le_refl 1, ?_⟩
    rw [drawAnswer_of_answers d hans, hans]
    rfl

theorem AfterDraws.of_linearizeStep (segs : List (List Byte)) (sg : Bool) (s : State) :
    AfterDraws 1 s (linearizeStep segs sg s).2 := by
  rw [linearizeStep]
  split
  · exact .of_drawAnswer .lin s
  · exact .refl 1 s

theorem AfterDraws.of_marginStep (hr tr pad : Nat) (s : State) : AfterDraws 1 s (marginStep hr tr pad s).2 := by
  rw [marginStep]
  split
  · exact .of_drawAnswer .alloc s
  · exact .refl 1 s

/-- A linearization fails only where one is asked for (41_tx_framing.md R166). -/
theorem linearizeStep_fail {segs : List (List Byte)} {sg : Bool} {s s₁ : State}
    (h : linearizeStep segs sg s = (.fail, s₁)) : 1 < segs.length ∧ sg = false := by
  rw [linearizeStep] at h
  split at h
  case isTrue hask => simpa using hask
  case isFalse => simp at h

/-- A copy fails only where one is asked for (41_tx_framing.md R167). -/
theorem marginStep_fail {hr tr pad : Nat} {s s₁ : State} (h : marginStep hr tr pad s = (.fail, s₁)) :
    hr < 8 ∨ tr < pad := by
  rw [marginStep] at h
  split at h
  case isTrue hask => exact hask
  case isFalse => simp at h

/-! ## Past the checks -/

section
variable {s : State} {mss : BitVec 16} {segs : List (List Byte)} {hr tr : Nat} (v : Bool) (tci : BitVec 16)
  (hcfg : 8 < cfgMaxPkt s) (hlen : (frameBytes segs).length ≤ txLenMax s.params.layout)
  (hmss : mss.toNat ≤ txMssMax s.params.layout)
include hcfg hlen hmss

theorem txeCommand_of_linearize_fail {s₁ : State} (hlin : linearizeStep segs (cfgSgOk s) s = (.fail, s₁)) :
    txeCommand v mss tci segs hr tr s = failTransmit .linearize s₁ := by
  have hsize : ¬ (txLenMax s.params.layout < (frameBytes segs).length ∨ txMssMax s.params.layout < mss.toNat) := by omega
  simp only [txeCommand, takeSnapshot_eq, if_neg (Nat.not_le.mpr hcfg), if_neg hsize, hlin]

theorem txeCommand_of_margin_fail {s₁ s₂ : State} (hlin : linearizeStep segs (cfgSgOk s) s = (.ok, s₁))
    (hmargin : marginStep hr tr (paddingFor (frameBytes segs).length (cfgMaxPkt s)) s₁ = (.fail, s₂)) :
    txeCommand v mss tci segs hr tr s = failTransmit .alloc s₂ := by
  have hsize : ¬ (txLenMax s.params.layout < (frameBytes segs).length ∨ txMssMax s.params.layout < mss.toNat) := by omega
  simp only [txeCommand, takeSnapshot_eq, if_neg (Nat.not_le.mpr hcfg), if_neg hsize, hlin, hmargin]

/-- A `TXE` past its checks fails for a resource it had to ask for, or sends its frame (41_tx_framing.md R166 to R171). -/
theorem txeCommand_fails_or_sends :
    ∃ s₁, AfterDraws 2 s s₁ ∧
      ((txeCommand v mss tci segs hr tr s = failTransmit .linearize s₁ ∧ 1 < segs.length ∧ cfgSgOk s = false) ∨
        (txeCommand v mss tci segs hr tr s = failTransmit .alloc s₁ ∧
          (hr < 8 ∨ tr < paddingFor (frameBytes segs).length (cfgMaxPkt s))) ∨
        txeCommand v mss tci segs hr tr s =
          finishTransmit (txHeader s.params.layout v mss tci (frameBytes segs).length (cfgMaxPkt s)) (frameBytes segs)
            (guardFires (frameBytes segs).length (cfgMaxPkt s)) (paddingFor (frameBytes segs).length (cfgMaxPkt s)) s₁) := by
  have hdraw := AfterDraws.of_linearizeStep segs (cfgSgOk s) s
  rcases hlin : linearizeStep segs (cfgSgOk s) s with ⟨_ | _, s₁⟩ <;> rw [hlin] at hdraw
  case fail => exact ⟨s₁, hdraw.trans (.refl 1 s₁), .inl ⟨txeCommand_of_linearize_fail v tci hcfg hlen hmss hlin,
    linearizeStep_fail hlin⟩⟩
  case ok =>
    have hdraw' := AfterDraws.of_marginStep hr tr (paddingFor (frameBytes segs).length (cfgMaxPkt s)) s₁
    rcases hmargin : marginStep hr tr (paddingFor (frameBytes segs).length (cfgMaxPkt s)) s₁ with ⟨_ | _, s₂⟩ <;>
      rw [hmargin] at hdraw'
    case fail => exact ⟨s₂, hdraw.trans hdraw', .inr (.inl ⟨txeCommand_of_margin_fail v tci hcfg hlen hmss hlin hmargin,
      marginStep_fail hmargin⟩)⟩
    case ok => exact ⟨s₂, hdraw.trans hdraw', .inr (.inr (txeCommand_of_resources_ok v tci hcfg hlen hmss hlin hmargin))⟩

end

end Sys2Proof.Machine
end

section
/-! PROOFS. What a `TXE` answers, sends and leaves alone (41_tx_framing.md R166 to R173, 20_memory.md R68). -/

namespace Sys2Proof.Machine

/-! ## Failures -/

theorem txStatusWord_linearize : txStatusWord true true (failBits .linearize) false 0 0 = 0x7 := rfl

theorem txStatusWord_alloc : txStatusWord true true (failBits .alloc) false 0 0 = 0xB := rfl

section
variable {s : State} {mss : BitVec 16} {segs : List (List Byte)} {hr tr : Nat} {rest : List Answer}

theorem linearizeStep_refused {sg : Bool} (hseg : 1 < segs.length) (hsg : sg = false)
    (hans : s.host.answers = .fail :: rest) :
    linearizeStep segs sg s = (.fail, { s with host := { s.host with answers := rest } }) := by
  rw [linearizeStep, if_pos (by simpa [hsg] using hseg), drawAnswer_of_answers .lin hans]

theorem marginStep_refused {pad : Nat} (hshort : hr < 8 ∨ tr < pad) (hans : s.host.answers = .fail :: rest) :
    marginStep hr tr pad s = (.fail, { s with host := { s.host with answers := rest } }) := by
  rw [marginStep, if_pos hshort, drawAnswer_of_answers .alloc hans]

/-- The operand check in the header's widths (41_tx_framing.md R162). -/
theorem operands_fit (hlay : layoutValid s.params.layout = true) (hlen : segs.flatten.length < 2 ^ 21)
    (hmss : mss.toNat < 2 ^ 15) :
    (frameBytes segs).length ≤ txLenMax s.params.layout ∧ mss.toNat ≤ txMssMax s.params.layout := by
  rw [txLenMax_eq _ hlay, txMssMax_eq _ hlay]
  exact ⟨Nat.le_pred_of_lt hlen, Nat.le_pred_of_lt hmss⟩

end

/-- Settles O44: the first draw of such a frame is the linearization, and it is refused. -/
theorem txeLinearizationFailure : Obligations.TxeLinearizationFailure := by
  unfold Obligations.TxeLinearizationFailure
  intro s v mss tci segs hr tr rest hlay hhr htr hcfg hlen hmss hseg hsg hans
  refine ⟨_, (exec_txe_next_iff v mss tci segs hr tr s _).mpr ⟨hhr, htr, hlay, rfl⟩, ?_⟩
  obtain ⟨hlenMax, hmssMax⟩ := operands_fit hlay hlen hmss
  have hlin := linearizeStep_refused (s := useSegments segs s) hseg hsg hans
  rw [txeCommand_of_linearize_fail (s := useSegments segs s) v tci hcfg hlenMax hmssMax hlin, failTransmit_eq,
    txStatusWord_linearize]
  rfl

/-- Settles O45: the linearization, where one is asked for, is granted, and the copy is refused. -/
theorem txeAllocationFailure : Obligations.TxeAllocationFailure := by
  unfold Obligations.TxeAllocationFailure
  intro s v mss tci segs hr tr rest hlay hhr htr hcfg hlen hmss hshort hans
  refine ⟨_, (exec_txe_next_iff v mss tci segs hr tr s _).mpr ⟨hhr, htr, hlay, rfl⟩, ?_⟩
  obtain ⟨hlenMax, hmssMax⟩ := operands_fit hlay hlen hmss
  have hans' : (useSegments segs s).host.answers =
      List.replicate (if 1 < segs.length ∧ cfgSgOk s = false then 1 else 0) Answer.ok ++ .fail :: rest := by
    rw [useSegments_host, hans]
    split <;> rfl
  have hlin := linearizeStep_granted (s := useSegments segs s) hans'
  rw [txeCommand_of_margin_fail (s := useSegments segs s) v tci hcfg hlenMax hmssMax hlin (marginStep_refused hshort rfl),
    failTransmit_eq, txStatusWord_alloc]
  rfl

/-! ## The frame sent -/

/-- The buffer of a frame `f` for the packet size `m` (41_tx_framing.md R163 to R168). -/
def sentBuffer (lay : Layout) (m : Nat) (v : Bool) (mss tci : BitVec 16) (f : List Byte) : List Byte :=
  wireBuffer (txHeader lay v mss tci f.length m) f (paddingFor f.length m)

/-- `TX_STATUS` after a frame of `n` bytes was sent (41_tx_framing.md R170). -/
def sentStatus (m n : Nat) : Word :=
  txStatusWord true false 0 (guardFires n m) (paddingFor n m) (8 + n + paddingFor n m)

theorem sentBuffer_length (lay : Layout) (m : Nat) (v : Bool) (mss tci : BitVec 16) (f : List Byte) :
    (sentBuffer lay m v mss tci f).length = 8 + f.length + paddingFor f.length m := wireBuffer_length _ _ _

theorem AfterDraws.block {k : Nat} {s t : State} (h : AfterDraws k s t) :
    t.csr = s.csr ∧ t.fs = s.fs ∧ t.wo = s.wo ∧ t.params = s.params := by
  obtain ⟨j, -, ht⟩ := h
  rw [ht]
  exact ⟨rfl, rfl, rfl, rfl⟩

/-- Settles O46: past its checks a `TXE` fails for a resource it asked for or sends its frame (`txeCommand_fails_or_sends`), and
the draws before that change nothing of the block. -/
theorem txeSendsOrFailsForAResource : Obligations.TxeSendsOrFailsForAResource := by
  unfold Obligations.TxeSendsOrFailsForAResource
  rintro s v mss tci segs hr tr _ _ hlay hhr htr hcfg rfl hlen hmss rfl
  refine ⟨_, (exec_txe_next_iff v mss tci segs hr tr s _).mpr ⟨hhr, htr, hlay, rfl⟩, ?_⟩
  obtain ⟨hlenMax, hmssMax⟩ := operands_fit hlay hlen hmss
  obtain ⟨s₁, hdraws, houtcome⟩ :=
    txeCommand_fails_or_sends (s := useSegments segs s) (hr := hr) (tr := tr) v tci hcfg hlenMax hmssMax
  obtain ⟨-, -, hwo, -⟩ := hdraws.block
  obtain ⟨hcmd, hseg, hsg⟩ | ⟨hcmd, hshort⟩ | hcmd := houtcome
  · rw [hcmd, failTransmit_eq, txStatusWord_linearize]
    exact .inr (.inl ⟨rfl, hwo, rfl, hseg, hsg⟩)
  · rw [hcmd, failTransmit_eq, txStatusWord_alloc]
    exact .inr (.inr ⟨rfl, hwo, rfl, hshort⟩)
  · rw [hcmd, finishTransmit_eq, hwo]
    exact .inl ⟨rfl, rfl⟩

section
variable {s t : State} {v : Bool} {mss tci : BitVec 16} {segs : List (List Byte)} {hr tr : Nat}

/-- Everything a successful `TXE` does to the block, which its operands and the configuration determine
(41_tx_framing.md R168 to R170). -/
theorem exec_txe_of_ok (h : exec (.txe v mss tci segs hr tr) s = .next t) (hok : t.rsp.code = 0) :
    layoutValid s.params.layout = true ∧ 8 < cfgMaxPkt s ∧ segs.flatten.length < 2 ^ 21 ∧ t.params = s.params ∧
      t.wo = s.wo ++ [sentBuffer s.params.layout (cfgMaxPkt s) v mss tci segs.flatten] ∧
      t.csr = { s.csr with txStatus := sentStatus (cfgMaxPkt s) segs.flatten.length } ∧
      t.rsp = ⟨0, BitVec.ofNat 32 (8 + segs.flatten.length + paddingFor segs.flatten.length (cfgMaxPkt s))⟩ := by
  obtain ⟨-, -, hlay, rfl⟩ := (exec_txe_next_iff v mss tci segs hr tr s t).mp h
  obtain ⟨-, hcmd⟩ | ⟨-, -, hcmd⟩ | ⟨hcfg, hlen, -, _, _, s₁, rfl, ⟨f, hcmd⟩ | hcmd⟩ :=
    txeCommand_cases v mss tci segs hr tr (useSegments segs s) <;> rw [hcmd] at hok ⊢
  · exact absurd hok (by decide : codeBits .badConfig ≠ 0)
  · exact absurd hok (by decide : codeBits .badOperand ≠ 0)
  · cases f with
    | linearize => exact absurd hok (by decide : codeBits .txLinearizeFail ≠ 0)
    | alloc => exact absurd hok (by decide : codeBits .txAllocFail ≠ 0)
  · rw [useSegments_csr, takeSnapshot_eq] at hcfg
    rw [useSegments_params, txLenMax_eq _ hlay] at hlen
    rw [finishTransmit_eq, useSegments_csr, takeSnapshot_eq]
    exact ⟨hlay, hcfg, Nat.lt_of_le_pred (by decide) hlen, rfl, rfl, rfl, rfl⟩

end

/-- Settles O47: the buffer and the status of a frame sent are given by the registers, the parameters, the tag, the segment size
and the bytes of the frame. -/
theorem txeOutputDoesNotDependOnResources : Obligations.TxeOutputDoesNotDependOnResources := by
  unfold Obligations.TxeOutputDoesNotDependOnResources
  intro s s' t t' v mss tci segs segs' hr hr' tr tr' hcsr hparams hflat h h' hok hok'
  obtain ⟨-, -, -, -, hwo, hst, -⟩ := exec_txe_of_ok h hok
  obtain ⟨-, -, -, -, hwo', hst', -⟩ := exec_txe_of_ok h' hok'
  have hpkt : cfgMaxPkt s' = cfgMaxPkt s := by rw [cfgMaxPkt, hcsr, cfgMaxPkt]
  rw [hparams, hpkt, hflat] at hwo'
  rw [hpkt, hflat] at hst'
  exact ⟨_, hwo, hwo', by rw [hst, hst']⟩

/-- Settles O48: the padding leaves a multiple of 8 and no whole number of packets (`paddingFor_spec`, `paddingFor_noZlp`), and
the length fits the fields that report it. -/
theorem txeNeverNeedsAZeroLengthPacket : Obligations.TxeNeverNeedsAZeroLengthPacket := by
  unfold Obligations.TxeNeverNeedsAZeroLengthPacket
  intro s t v mss tci segs hr tr h hok
  obtain ⟨-, hcfg, hlen, -, hwo, hst, hrsp⟩ := exec_txe_of_ok h hok
  obtain ⟨hpad, hmod, -⟩ := paddingFor_spec segs.flatten.length (cfgMaxPkt s)
  have hzlp := paddingFor_noZlp segs.flatten.length (cfgMaxPkt s) hcfg
  refine ⟨_, hwo, ?_⟩
  rw [sentBuffer_length, hrsp, hst]
  refine ⟨hzlp, hmod, by omega, Nat.mod_eq_of_lt (by omega), ?_⟩
  rw [sentStatus, txEncLen_word]
  exact Nat.mod_eq_of_lt (by omega)

/-! ## What a `TXE` leaves alone -/

/-- From the state after the draws, a `TXE` writes `TX_STATUS` and `RSP` and appends at most one buffer. -/
def TxEnding (s t : State) : Prop :=
  ∃ buffers : List (List Byte), buffers.length ≤ 1 ∧
    t = { s with wo := s.wo ++ buffers, csr := { s.csr with txStatus := t.csr.txStatus }, rsp := t.rsp }

theorem TxEnding.of_raiseCode (c : RspCode) (s : State) : TxEnding s (raiseCode c s) :=
  ⟨[], Nat.zero_le 1, by rw [List.append_nil]; rfl⟩

theorem TxEnding.of_failTransmit (f : TxFailure) (s : State) : TxEnding s (failTransmit f s) :=
  ⟨[], Nat.zero_le 1, by rw [failTransmit_eq, List.append_nil]⟩

theorem TxEnding.of_finishTransmit (h : DWord) (f : List Byte) (drop : Bool) (pad : Nat) (s : State) :
    TxEnding s (finishTransmit h f drop pad s) :=
  ⟨[wireBuffer h f pad], Nat.le_refl 1, by rw [finishTransmit_eq]⟩

/-- Every `TXE` is its draws and then an ending (41_tx_framing.md R171). -/
theorem txeCommand_draws_then_ends (v : Bool) (mss tci : BitVec 16) (segs : List (List Byte)) (hr tr : Nat) (s : State) :
    ∃ s₁, AfterDraws 2 s s₁ ∧ TxEnding s₁ (txeCommand v mss tci segs hr tr s) := by
  obtain ⟨-, hcmd⟩ | ⟨-, -, hcmd⟩ | ⟨hcfg, hlen, hmss, -⟩ := txeCommand_cases v mss tci segs hr tr s
  · rw [hcmd]; exact ⟨s, .refl 2 s, .of_raiseCode .badConfig s⟩
  · rw [hcmd]; exact ⟨s, .refl 2 s, .of_raiseCode .badOperand s⟩
  · rw [takeSnapshot_eq] at hcfg
    obtain ⟨s₁, hdraws, ⟨hcmd, -⟩ | ⟨hcmd, -⟩ | hcmd⟩ :=
      txeCommand_fails_or_sends (hr := hr) (tr := tr) v tci hcfg hlen hmss <;> rw [hcmd]
    · exact ⟨s₁, hdraws, .of_failTransmit .linearize s₁⟩
    · exact ⟨s₁, hdraws, .of_failTransmit .alloc s₁⟩
    · exact ⟨s₁, hdraws, .of_finishTransmit _ _ _ _ s₁⟩

theorem usedSegments_map_length (n : Nat) (segs : List (List Byte)) :
    (usedSegments n segs).map List.length = segs.map List.length := by
  refine List.ext_getElem (by simp [usedSegments]) fun i _ _ => ?_
  simp [usedSegments]

/-- Settles O49: the draws touch the host's answers and the counter, the ending `WO`, `TX_STATUS` and `RSP`. -/
theorem txeFrame : Obligations.TxeFrame := by
  unfold Obligations.TxeFrame
  intro s t v mss tci segs hr tr h
  obtain ⟨-, -, -, ht⟩ := (exec_txe_next_iff v mss tci segs hr tr s t).mp h
  obtain ⟨s₁, ⟨k, hk, hs₁⟩, buffers, hone, hend⟩ := txeCommand_draws_then_ends v mss tci segs hr tr (useSegments segs s)
  rw [← ht, hs₁] at hend
  rw [hend]
  exact ⟨rfl, ⟨buffers, rfl, hone⟩, ⟨k, hk, rfl⟩, usedSegments_map_length s.free segs⟩

end Sys2Proof.Machine
end

section
/-! PROOFS. What a usable layout is, and which operands are refused (60_exceptions.md R255). -/

namespace Sys2Proof.Machine

/-! ## Fields that share no bit -/

/-- Two fields that are not empty stand apart exactly when no bit belongs to both (00_scope.md R12). -/
theorem fieldsApart_iff {f g : Field} (hf : 0 < f.width) (hg : 0 < g.width) :
    fieldsApart f g = true ↔ ¬ ∃ k, (f.lo ≤ k ∧ k < f.lo + f.width) ∧ (g.lo ≤ k ∧ k < g.lo + g.width) := by
  rw [fieldsApart, Bool.or_eq_true, decide_eq_true_eq, decide_eq_true_eq]
  constructor
  · rintro h ⟨k, hkf, hkg⟩
    omega
  · intro hnone
    by_contra hover
    exact hnone ⟨max f.lo g.lo, by omega, by omega⟩

theorem allApart_iff_pairwise (l : List Field) : allApart l = true ↔ l.Pairwise fun f g => fieldsApart f g = true := by
  induction l with
  | nil => simp [allApart]
  | cons f l ih => rw [allApart, Bool.and_eq_true, ih, List.all_eq_true, List.pairwise_cons]

theorem allApart_iff_noSharedBit {l : List Field} (hpos : ∀ f ∈ l, 0 < f.width) :
    allApart l = true ↔
      l.Pairwise fun f g => ¬ ∃ k, (f.lo ≤ k ∧ k < f.lo + f.width) ∧ (g.lo ≤ k ∧ k < g.lo + g.width) := by
  rw [allApart_iff_pairwise]
  exact List.Pairwise.iff_of_mem fun hf hg => fieldsApart_iff (hpos _ hf) (hpos _ hg)

/-- The check of one wire word: the widths of its fields, their places within 64 bits, and no two of them overlapping. -/
def wordUsable (fields : List Field) (widths : List Nat) : Prop :=
  fields.map Field.width = widths ∧ (∀ f ∈ fields, f.lo + f.width ≤ 64) ∧ allApart fields = true

theorem layoutValid_iff_wordUsable (lay : Layout) :
    layoutValid lay = true ↔ wordUsable (trailerFields lay) [13, 19] ∧
      wordUsable (descFields lay) [1, 1, 3, 1, 1, 15, 1, 12] ∧ wordUsable (headerFields lay) [21, 1, 1, 15, 16] := by
  simp only [layoutValid, fieldFits, wordUsable, trailerFields, descFields, headerFields, Bool.and_eq_true,
    decide_eq_true_eq, List.map_cons, List.map_nil, List.cons.injEq, List.forall_mem_cons, List.not_mem_nil,
    false_implies, implies_true, and_true]
  -- both sides are one conjunction, grouped by field on the left and by word on the right
  exact Iff.of_eq (by ac_rfl)

theorem wordUsable_iff_noSharedBit {fields : List Field} {widths : List Nat} (hpos : ∀ w ∈ widths, 0 < w) :
    wordUsable fields widths ↔ fields.map Field.width = widths ∧ (∀ f ∈ fields, f.lo + f.width ≤ 64) ∧
      fields.Pairwise fun f g => ¬ ∃ k, (f.lo ≤ k ∧ k < f.lo + f.width) ∧ (g.lo ≤ k ∧ k < g.lo + g.width) := by
  refine and_congr_right fun hwidths => and_congr_right fun _ => allApart_iff_noSharedBit fun f hf => hpos _ ?_
  exact hwidths ▸ List.mem_map_of_mem hf

/-- Settles O15: the check is one per wire word (`layoutValid_iff_wordUsable`), and since no field of the tables is empty,
fields apart are fields without a common bit. -/
theorem usableLayoutMeansNoSharedBit : Obligations.UsableLayoutMeansNoSharedBit := by
  unfold Obligations.UsableLayoutMeansNoSharedBit
  intro lay
  rw [layoutValid_iff_wordUsable, wordUsable_iff_noSharedBit (by decide), wordUsable_iff_noSharedBit (by decide),
    wordUsable_iff_noSharedBit (by decide)]
  simp only [List.forall_mem_cons, List.not_mem_nil, false_implies, implies_true, and_true]
  constructor
  · rintro ⟨⟨hwt, ht⟩, ⟨hwd, hd⟩, hwh, hh⟩
    exact ⟨hwt, hwd, hwh, ht, hd, hh⟩
  · rintro ⟨hwt, hwd, hwh, ht, hd, hh⟩
    exact ⟨⟨hwt, ht⟩, ⟨hwd, hd⟩, hwh, hh⟩

/-! ## Refusals -/

/-- A command is refused or completes: no fault exists (60_exceptions.md R254, log 10). -/
theorem exec_refused_iff (i : Instr) (s : State) : (∃ r, exec i s = .refused r) ↔ ¬ ∃ t, exec i s = .next t := by
  rcases exec i s with t | f | r
  · simp
  · exact nomatch f
  · simp

/-- `CFGW` and `CFGR` are never refused (log 11). -/
theorem exec_cfgw_completes (csr : BitVec 8) (d : Word) (s : State) : ∃ t, exec (.cfgw csr d) s = .next t := by
  rcases hidx : csrOfIndex csr with _ | r
  · exact ⟨_, exec_cfgw_of_undefined hidx d s⟩
  · obtain rfl := (csrOfIndex_eq_some csr r).mp hidx
    cases hro : csrReadOnly r
    · exact ⟨_, exec_cfgw_of_writable hro d s⟩
    · exact ⟨_, exec_cfgw_of_readOnly hro d s⟩

theorem exec_cfgr_completes (csr : BitVec 8) (s : State) : ∃ t, exec (.cfgr csr) s = .next t := by
  rcases hidx : csrOfIndex csr with _ | r
  · exact ⟨_, exec_cfgr_of_undefined hidx s⟩
  · obtain rfl := (csrOfIndex_eq_some csr r).mp hidx
    exact ⟨_, exec_cfgr_csrIndex r s⟩

theorem exec_rxd_completes_iff (b : List Byte) (s : State) :
    (∃ t, exec (.rxd b) s = .next t) ↔ b.length < 2 ^ 32 ∧ layoutValid s.params.layout = true := by
  simp only [exec_rxd_next_iff, exists_and_left, exists_eq, and_true]

theorem exec_txe_completes_iff (v : Bool) (mss tci : BitVec 16) (segs : List (List Byte)) (hr tr : Nat) (s : State) :
    (∃ t, exec (.txe v mss tci segs hr tr) s = .next t) ↔
      hr < 2 ^ 32 ∧ tr < 2 ^ 32 ∧ layoutValid s.params.layout = true := by
  simp only [exec_txe_next_iff, exists_and_left, exists_eq, and_true]

theorem exec_rxd_tooLong {b : List Byte} (h : 2 ^ 32 ≤ b.length) (s : State) :
    exec (.rxd b) s = .refused .transferTooLong := by
  simp only [exec, execRxd]
  exact if_pos h

theorem exec_rxd_unusable {b : List Byte} {s : State} (h : b.length < 2 ^ 32) (hlay : layoutValid s.params.layout = false) :
    exec (.rxd b) s = .refused .layoutUnusable := by
  simp only [exec, execRxd, hlay, Bool.false_eq_true, if_false]
  exact if_neg (Nat.not_le.mpr h)

theorem exec_txe_marginTooLarge {hr tr : Nat} (h : 2 ^ 32 ≤ hr ∨ 2 ^ 32 ≤ tr) (v : Bool) (mss tci : BitVec 16)
    (segs : List (List Byte)) (s : State) : exec (.txe v mss tci segs hr tr) s = .refused .marginTooLarge := by
  simp only [exec, execTxe]
  exact if_pos h

theorem exec_txe_unusable {hr tr : Nat} {s : State} (hhr : hr < 2 ^ 32) (htr : tr < 2 ^ 32)
    (hlay : layoutValid s.params.layout = false) (v : Bool) (mss tci : BitVec 16) (segs : List (List Byte)) :
    exec (.txe v mss tci segs hr tr) s = .refused .layoutUnusable := by
  simp only [exec, execTxe, hlay, Bool.false_eq_true, if_false]
  exact if_neg (not_or.mpr ⟨Nat.not_le.mpr hhr, Nat.not_le.mpr htr⟩)

/-- Settles O14: what does not complete is refused (`exec_refused_iff`), and each command completes under the conditions of its
`_completes` lemma. -/
theorem refusalsAreTheListedOperands : Obligations.RefusalsAreTheListedOperands := by
  unfold Obligations.RefusalsAreTheListedOperands
  refine fun i s => ⟨?_, fun b h => exec_rxd_tooLong h s, fun v mss tci segs hr tr h =>
    exec_txe_marginTooLarge h v mss tci segs s, fun b => exec_rxd_unusable, fun v mss tci segs hr tr hhr htr hlay =>
    exec_txe_unusable hhr htr hlay v mss tci segs⟩
  rw [exec_refused_iff]
  cases i with
  | cfgw csr d => simp [exec_cfgw_completes]
  | cfgr csr => simp [exec_cfgr_completes]
  | rxd b => simp [exec_rxd_completes_iff, imp_iff_not_or]
  | txe v mss tci segs hr tr => simp [exec_txe_completes_iff, imp_iff_not_or]

end Sys2Proof.Machine
end

section
/-! PROOFS. The port (60_exceptions.md R248 to R253): one step per item of the stream, what a step only adds to, and the reset
values (70_reset_and_hazards.md section 1). -/

namespace Sys2Proof.Machine

/-! ## One step per kind of item -/

/-- Settles O12: with an empty stream the port takes nothing. -/
theorem nothingPendingNothingChanges : Obligations.NothingPendingNothingChanges := by
  unfold Obligations.NothingPendingNothingChanges
  intro s hpending
  rw [step, portStep, hpending]

/-- Settles O10: the port answers a reset with `hostReset`, which sets the block's own fields. -/
theorem hostResetRestoresTheBlock : Obligations.HostResetRestoresTheBlock := by
  unfold Obligations.HostResetRestoresTheBlock
  intro s rest hpending
  rw [step, portStep, hpending, State.reset_csr]
  rfl

theorem runPresented_of_decode_ok {p : Presented} {i : Instr} (h : decode p = .ok i) (s : State) :
    runPresented p s = completed (exec i s) := by
  rw [runPresented, h]

/-- Settles O7: the port runs the decoded command without the item it took, and counts it if it completes. -/
theorem stepRunsTheDecodedCommand : Obligations.StepRunsTheDecodedCommand := by
  unfold Obligations.StepRunsTheDecodedCommand
  intro s p rest i hpending hdec
  rw [step_of_pending_command hpending, runPresented_of_decode_ok hdec]
  refine ⟨fun t ht => ?_, fun r hr => ?_⟩
  · have hexec : exec i (setPending rest s) = .next t := ht
    rw [hexec]
    rfl
  · have hexec : exec i (setPending rest s) = .refused r := hr
    rw [hexec]
    rfl

/-! ## What every command only adds to -/

/-- From `s` to `t` the output streams only grow, by at most one buffer, and the stream of commands, its index and the
parameters stay (10_state.md R22, R31, R32). -/
def OnlyAppends (s t : State) : Prop :=
  (∃ frames, t.fs = s.fs ++ frames) ∧ (∃ buffers, t.wo = s.wo ++ buffers ∧ buffers.length ≤ 1) ∧
  t.host.pending = s.host.pending ∧ t.position = s.position ∧ t.params = s.params

theorem OnlyAppends.of_eq {s t : State} (hfs : t.fs = s.fs) (hwo : t.wo = s.wo) (hhost : t.host.pending = s.host.pending)
    (hpos : t.position = s.position) (hparams : t.params = s.params) : OnlyAppends s t :=
  ⟨⟨[], by rw [hfs, List.append_nil]⟩, ⟨[], by rw [hwo, List.append_nil], Nat.zero_le 1⟩, hhost, hpos, hparams⟩

/-- Each command's frame says so. -/
theorem exec_onlyAppends {i : Instr} {s t : State} (h : exec i s = .next t) : OnlyAppends s t := by
  cases i with
  | cfgw csr data =>
    obtain ⟨hframe, -⟩ := (controlCommandsFrame s t csr data).1 h
    rw [hframe]
    exact .of_eq rfl rfl rfl rfl rfl
  | cfgr csr =>
    rw [exec_cfgr_frame h]
    exact .of_eq rfl rfl rfl rfl rfl
  | rxd b =>
    obtain ⟨hframe, hfs⟩ := rxdFrame s t b h
    rw [hframe]
    exact ⟨hfs, ⟨[], (List.append_nil _).symm, Nat.zero_le 1⟩, rfl, rfl, rfl⟩
  | txe v mss tci segs hr tr =>
    obtain ⟨hframe, hwo, -⟩ := txeFrame s t v mss tci segs hr tr h
    rw [hframe]
    exact ⟨⟨[], (List.append_nil _).symm⟩, hwo, rfl, rfl, rfl⟩

/-- Settles O17: a step that is no reset takes nothing, or one command, which only appends (`exec_onlyAppends`) or is illegal
and appends nothing. -/
theorem streamsOnlyGrow : Obligations.StreamsOnlyGrow := by
  unfold Obligations.StreamsOnlyGrow
  intro s t hstep hnoreset
  obtain ⟨hnone, rfl⟩ | ⟨rest, hreset, -⟩ | ⟨p, rest, e, hp, -, rfl⟩ | ⟨p, rest, i, u, hp, -, hexec, rfl⟩ :=
    step_cases s t hstep
  · refine ⟨⟨[], (List.append_nil _).symm⟩, ⟨[], (List.append_nil _).symm, Nat.zero_le 1⟩, ?_, ?_, rfl⟩
    · rw [Nat.sub_self, Nat.add_zero]
    · rw [hnone, List.tail_nil]
  · exact absurd hreset (hnoreset rest)
  · refine ⟨⟨[], (List.append_nil _).symm⟩, ⟨[], (List.append_nil _).symm, Nat.zero_le 1⟩, ?_, ?_, rfl⟩
    · simp [hp]
    · simp [hp]
  · obtain ⟨hfs, hwo, hpending, hpos, hparams⟩ := exec_onlyAppends hexec
    refine ⟨hfs, hwo, ?_, ?_, hparams⟩
    · simp [hp, hpending, hpos]
    · simp [hp, hpending]

/-! ## Every command completes -/

theorem exec_completes {i : Instr} {s : State} (hlay : layoutValid s.params.layout = true) (hwf : i.wellFormed = true) :
    ∃ t, exec i s = .next t := by
  cases i with
  | cfgw csr d => exact exec_cfgw_completes csr d s
  | cfgr csr => exact exec_cfgr_completes csr s
  | rxd b => exact (exec_rxd_completes_iff b s).mpr ⟨of_decide_eq_true hwf, hlay⟩
  | txe v mss tci segs hr tr =>
    obtain ⟨hhr, htr⟩ := Bool.and_eq_true_iff.mp hwf
    exact (exec_txe_completes_iff v mss tci segs hr tr s).mpr ⟨of_decide_eq_true hhr, of_decide_eq_true htr, hlay⟩

/-- A decoded command has the operands presented, so it is a legal spelling if they are in their range (30_encoding.md R74). -/
theorem decode_wellFormed {p : Presented} {i : Instr} (hdec : decode p = .ok i) (hbuf : p.ops.buf.length < 2 ^ 32)
    (hhr : p.ops.hr < 2 ^ 32) (htr : p.ops.tr < 2 ^ 32) : i.wellFormed = true := by
  obtain ⟨-, ⟨-, -, rfl⟩ | ⟨-, -, rfl⟩ | ⟨-, -, -, rfl⟩ | ⟨-, -, rfl⟩⟩ := (decode_ok_iff p i).mp hdec
  · rfl
  · rfl
  · exact decide_eq_true hbuf
  · exact Bool.and_eq_true_iff.mpr ⟨decide_eq_true hhr, decide_eq_true htr⟩

/-- Settles O13: a word is illegal, which completes at once, or decodes to a legal spelling, which completes
(`exec_completes`). -/
theorem everyPresentedCommandCompletes : Obligations.EveryPresentedCommandCompletes := by
  unfold Obligations.EveryPresentedCommandCompletes
  intro s p rest hpending hlay hbuf hhr htr
  rw [step_of_pending_command hpending]
  rcases hdec : decode p with e | i
  · exact ⟨_, runPresented_of_decode_error hdec _, rfl, rfl⟩
  · obtain ⟨t, ht⟩ := exec_completes (s := setPending rest s) hlay (decode_wellFormed hdec hbuf hhr htr)
    obtain ⟨-, -, hrest, hpos, -⟩ := exec_onlyAppends ht
    refine ⟨completeCommand t, ?_, hrest, congrArg (· + 1) hpos⟩
    rw [runPresented_of_decode_ok hdec, ht]
    rfl

/-! ## Out of reset -/

/-- Settles O11: the two sizes are 0 at reset, which each engine checks first; the control commands check nothing of the
kind. -/
theorem enginesNeedConfigurationAfterReset : Obligations.EnginesNeedConfigurationAfterReset := by
  unfold Obligations.EnginesNeedConfigurationAfterReset
  intro s hreset hlay
  have hmaxLen : cfgMaxLen s = 0 := by rw [cfgMaxLen, hreset]; rfl
  have hmaxPkt : cfgMaxPkt s ≤ 8 := by rw [cfgMaxPkt, hreset]; decide
  have hcsum : cfgCsumEn s = true := by rw [cfgCsumEn, hreset]; decide
  refine ⟨fun b hlen => ?_, fun v mss tci segs hr tr hhr htr => ?_, fun d => ?_, ?_⟩
  · exact ⟨_, (rxdEntryChecks s b hlay hlen).1 hmaxLen, rfl, rfl, rfl⟩
  · obtain ⟨t, hexec, ht⟩ := txeConfigurationCheck s v mss tci segs hr tr hlay hhr htr hmaxPkt
    exact ⟨t, hexec, by rw [ht], by rw [ht], by rw [ht]⟩
  · exact ⟨_, (cfgwWritesUnderTheMask s d).1, rfl, low16_and_mask d, hcsum⟩
  · obtain ⟨-, hctrl, -⟩ := cfgrReturnsTheRegister s
    refine ⟨_, hctrl, ?_⟩
    rw [hreset]
    rfl

end Sys2Proof.Machine
end

section
/-! PROOFS. The invariant (10_state.md section 3): it speaks of the block's own state only, and every ending of a command keeps
it. -/

namespace Sys2Proof.Machine

/-! ## The parts of the invariant -/

theorem and_low16_reserved (d : Word) : (d &&& 0x0000FFFF) &&& 0xFFFF0000 = 0 := by
  rw [BitVec.and_assoc]
  exact BitVec.and_zero

theorem and_one_reserved (d : Word) : (d &&& 0x00000001) &&& 0xFFFFFFFE = 0 := by
  rw [BitVec.and_assoc]
  exact BitVec.and_zero

/-- A write keeps the reserved bits 0 (10_state.md R23). -/
theorem reservedClear_csrWrite {c : Csr} (h : reservedClear c) (r : CsrName) (d : Word) : reservedClear (csrWrite c r d) := by
  obtain ⟨hmaxLen, hctrl, hmaxPkt, hsg⟩ := h
  cases r with
  | rxMaxLen => exact ⟨and_low16_reserved d, hctrl, hmaxPkt, hsg⟩
  | rxCtrl => exact ⟨hmaxLen, and_one_reserved d, hmaxPkt, hsg⟩
  | txMaxPkt => exact ⟨hmaxLen, hctrl, and_low16_reserved d, hsg⟩
  | txCtrl => exact ⟨hmaxLen, hctrl, hmaxPkt, and_one_reserved d⟩
  | rxStatus => exact ⟨hmaxLen, hctrl, hmaxPkt, hsg⟩
  | txStatus => exact ⟨hmaxLen, hctrl, hmaxPkt, hsg⟩

/-- A response that carries data is `OK` (30_encoding.md R77). -/
theorem responseLegal_raise (c : RspCode) : responseLegal ⟨codeBits c, 0⟩ := ⟨codeBits_toNat_le c, fun _ => rfl⟩

theorem responseLegal_ok (w : Word) : responseLegal ⟨0, w⟩ := ⟨Nat.zero_le 8, fun h => absurd rfl h⟩

theorem reasonBits_mem_iff (r : Reason) : reasonBits r ∈ ([1, 2, 4, 5, 6] : List (BitVec 4)) ↔ r ≠ .offsetRange := by
  cases r <;> decide

theorem rxStatusLegal_discard {r : Reason} (h : r ≠ .offsetRange) :
    rxStatusLegal (rxStatusWord (reasonBits r) true true 0 0) := by
  refine .inr (.inl ⟨rxValidBit_word .., rxDiscardBit_word .., ?_, rxDelivered_word .., rxSkipped_word ..⟩)
  rw [rxReason_word]
  exact (reasonBits_mem_iff r).mpr h

theorem rxStatusLegal_success {pc dl : Nat} (hdl : dl ≤ pc) (hpos : 0 < pc) (hpc : pc ≤ 8191) :
    rxStatusLegal (rxStatusWord 0 false true dl (pc - dl)) := by
  refine .inr (.inr ⟨rxValidBit_word .., rxDiscardBit_word .., rxReason_word .., ?_, ?_⟩) <;>
    rw [rxDelivered_word, rxSkipped_word] <;> omega

theorem txStatusLegal_failure (f : TxFailure) : txStatusLegal (txStatusWord true true (failBits f) false 0 0) := by
  refine .inr (.inl ⟨txValidBit_word .., txFailedBit_word .., ?_, txDropPadd_word .., txPadding_word .., txEncLen_word ..⟩)
  rw [txFail_word]
  cases f <;> decide

/-- The padding and the encoded length fit their fields (41_tx_framing.md R165, R170). -/
theorem txStatusLegal_sent {n : Nat} (hn : n < 2 ^ 21) (m : Nat) : txStatusLegal (sentStatus m n) := by
  obtain ⟨hpad, hmod, hguard⟩ := paddingFor_spec n m
  have hpadField : txPadding (sentStatus m n) = paddingFor n m := by
    rw [sentStatus, txPadding_word]
    exact Nat.mod_eq_of_lt (by omega)
  have hlenField : txEncLen (sentStatus m n) = 8 + n + paddingFor n m := by
    rw [sentStatus, txEncLen_word]
    exact Nat.mod_eq_of_lt (by omega)
  refine .inr (.inr ⟨txValidBit_word .., txFailedBit_word .., txFail_word .., ?_, ?_, ?_⟩)
  · rw [hlenField, hmod]
  · rw [hlenField, hpadField]
    omega
  · rw [sentStatus, txDropPadd_word, hguard, ← sentStatus, hpadField]

theorem wireLegal_sent (lay : Layout) (m : Nat) (v : Bool) (mss tci : BitVec 16) (f : List Byte) :
    wireLegal (sentBuffer lay m v mss tci f) := by
  obtain ⟨-, hmod, -⟩ := paddingFor_spec f.length m
  rw [wireLegal, sentBuffer_length]
  exact ⟨by omega, hmod⟩

theorem frameOf_length_le (pad : Nat) (csumEn : Bool) (b : List Byte) (sl : Slot) :
    (frameOf pad csumEn b sl).data.length ≤ sl.desc.len := by
  have hslice : (frameOf pad csumEn b sl).data.length ≤ sl.start + sl.desc.len - (sl.start + pad) := List.length_take_le _ _
  omega

/-- A frame is no longer than its descriptor's 15-bit length (30_encoding.md R81, 40_rx_reassembly.md R125). -/
theorem frameLegal_of_mem_transferFrames {s : State} {b : List Byte} {f : Frame} (hlay : layoutValid s.params.layout = true)
    (hf : f ∈ transferFrames s b) : frameLegal f := by
  obtain ⟨i, -, hat⟩ := List.mem_filterMap.mp hf
  obtain ⟨hi, -, rfl⟩ := (frameAt_eq_some_iff _ _ _ _ _).mp hat
  obtain ⟨k, -, hdesc⟩ := List.mem_map.mp (List.getElem_mem hi)
  have hlen := decodeDesc_len_lt s.params.layout hlay
    (le64 b (trailerOffset s.params.layout (trailerWord b) + 8 * k))
  rw [hdesc] at hlen
  exact (frameOf_length_le _ _ _ _).trans (Nat.le_of_lt_succ hlen)

/-! ## Every ending keeps the invariant -/

section
variable {s t : State} (h : s.Good)
include h

/-- The invariant is about the registers, the response and the output streams. -/
theorem State.Good.congr (hcsr : t.csr = s.csr) (hrsp : t.rsp = s.rsp) (hfs : t.fs = s.fs) (hwo : t.wo = s.wo) : t.Good where
  reserved := hcsr ▸ h.reserved
  rxStatus := hcsr ▸ h.rxStatus
  txStatus := hcsr ▸ h.txStatus
  response := hrsp ▸ h.response
  frames := hfs ▸ h.frames
  wires := hwo ▸ h.wires

theorem good_respond {c : RspCode} {w : Word} (hlegal : responseLegal ⟨codeBits c, w⟩) : (respond c w s).Good :=
  { h with response := hlegal }

theorem good_raiseCode (c : RspCode) : (raiseCode c s).Good := good_respond h (responseLegal_raise c)

theorem good_discardTransfer {r : Reason} (hr : r ≠ .offsetRange) : (discardTransfer r s).Good := by
  rw [discardTransfer_eq]
  exact { h with rxStatus := rxStatusLegal_discard hr, response := responseLegal_raise .rxDiscard }

theorem good_failTransmit (f : TxFailure) : (failTransmit f s).Good := by
  rw [failTransmit_eq]
  exact { h with txStatus := txStatusLegal_failure f, response := responseLegal_raise (failCode f) }

theorem good_finishTransmit (m : Nat) (lay : Layout) (v : Bool) (mss tci : BitVec 16) {f : List Byte}
    (hf : f.length < 2 ^ 21) :
    (finishTransmit (txHeader lay v mss tci f.length m) f (guardFires f.length m) (paddingFor f.length m) s).Good := by
  rw [finishTransmit_eq]
  exact { h with
    txStatus := txStatusLegal_sent hf m
    response := responseLegal_ok _
    wires := List.forall_mem_append.mpr ⟨h.wires, List.forall_mem_singleton.mpr (wireLegal_sent lay m v mss tci f)⟩ }

/-- A delivery of a consistent transfer (40_rx_reassembly.md R128 to R130). -/
theorem good_deliverTransfer {b : List Byte} (hlay : layoutValid s.params.layout = true)
    (hcons : transferConsistent s.params.layout b) :
    (deliverTransfer (takeSnapshot s.csr) b (slotsOf (transferDescs s.params.layout b)) s).Good := by
  obtain ⟨-, -, hpos, -⟩ := hcons
  have hpc := packetCount_lt s.params.layout hlay (trailerWord b)
  rw [deliverTransfer_eq, deliveredFrames_transfer, slotsOf_length, transferDescs_length]
  exact { h with
    rxStatus := rxStatusLegal_success (transferFrames_length_le s b) hpos (Nat.le_of_lt_succ hpc)
    response := responseLegal_ok _
    frames := List.forall_mem_append.mpr ⟨h.frames, fun f hf => frameLegal_of_mem_transferFrames hlay hf⟩ }

/-! ## Every command keeps the invariant -/

theorem exec_cfgw_good {i : BitVec 8} {d : Word} (hexec : exec (.cfgw i d) s = .next t) : t.Good := by
  obtain ⟨-, rfl⟩ | ⟨r, -, -, rfl⟩ | ⟨r, -, hrw, rfl⟩ := exec_cfgw_cases i d s t hexec
  · exact good_raiseCode h .badCsr
  · exact good_raiseCode h .roWrite
  · obtain ⟨hrx, htx⟩ := csrWrite_status_of_writable hrw s.csr d
    exact { h with
      reserved := reservedClear_csrWrite h.reserved r d
      rxStatus := hrx.symm ▸ h.rxStatus
      txStatus := htx.symm ▸ h.txStatus
      response := responseLegal_ok 0 }

theorem exec_cfgr_good {i : BitVec 8} (hexec : exec (.cfgr i) s = .next t) : t.Good := by
  obtain ⟨-, rfl⟩ | ⟨r, -, rfl⟩ := exec_cfgr_cases i s t hexec
  · exact good_raiseCode h .badCsr
  · exact good_respond h (responseLegal_ok _)

theorem exec_rxd_good {b : List Byte} (hexec : exec (.rxd b) s = .next t) : t.Good := by
  obtain ⟨-, hlay, rfl⟩ := (exec_rxd_next_iff b s t).mp hexec
  have hheld : (holdTransfer b s).Good := h.congr rfl rfl rfl rfl
  obtain ⟨-, hcmd⟩ | ⟨-, r, herr, hcmd⟩ | ⟨-, hcons, -, hcmd⟩ := rxdCommand_cases b (holdTransfer b s) <;> rw [hcmd]
  · exact good_raiseCode hheld .badConfig
  · refine good_discardTransfer hheld ?_
    rintro rfl
    exact validateTransfer_ne_offsetRange _ _ herr
  · exact good_deliverTransfer hheld hlay hcons

theorem exec_txe_good {v : Bool} {mss tci : BitVec 16} {segs : List (List Byte)} {hr tr : Nat}
    (hexec : exec (.txe v mss tci segs hr tr) s = .next t) : t.Good := by
  obtain ⟨-, -, hlay, rfl⟩ := (exec_txe_next_iff v mss tci segs hr tr s t).mp hexec
  have hused : (useSegments segs s).Good := h.congr rfl rfl rfl rfl
  obtain ⟨-, hcmd⟩ | ⟨-, -, hcmd⟩ | ⟨-, hlen, -, as, n, s₁, rfl, hcmd⟩ :=
    txeCommand_cases v mss tci segs hr tr (useSegments segs s)
  · rw [hcmd]; exact good_raiseCode hused .badConfig
  · rw [hcmd]; exact good_raiseCode hused .badOperand
  · rw [useSegments_params, txLenMax_eq _ hlay] at hlen
    have hdrawn : { useSegments segs s with host := { (useSegments segs s).host with answers := as }, free := n }.Good :=
      h.congr rfl rfl rfl rfl
    obtain ⟨f, hcmd⟩ | hcmd := hcmd <;> rw [hcmd]
    · exact good_failTransmit hdrawn f
    · exact good_finishTransmit hdrawn _ _ v mss tci (Nat.lt_of_le_pred (by decide) hlen)

theorem exec_good {i : Instr} (hexec : exec i s = .next t) : t.Good := by
  cases i with
  | cfgw csr data => exact exec_cfgw_good h hexec
  | cfgr csr => exact exec_cfgr_good h hexec
  | rxd b => exact exec_rxd_good h hexec
  | txe v mss tci segs hr tr => exact exec_txe_good h hexec

end

/-! ## The statements -/

/-- The block's reset values, whatever else the state holds (10_state.md R38, 70_reset_and_hazards.md R270). -/
theorem good_of_reset {s : State} (hcsr : s.csr = Csr.reset) (hrsp : s.rsp = ⟨0, 0⟩) (hfs : s.fs = []) (hwo : s.wo = []) :
    s.Good where
  reserved := by rw [hcsr, reservedClear]; decide
  rxStatus := by rw [hcsr]; exact .inl rfl
  txStatus := by rw [hcsr]; exact .inl rfl
  response := by rw [hrsp]; exact responseLegal_ok 0
  frames := by rw [hfs]; exact List.forall_mem_nil _
  wires := by rw [hwo]; exact List.forall_mem_nil _

/-- Settles O18: the reset values are good. -/
theorem goodAfterReset : Obligations.GoodAfterReset := by
  unfold Obligations.GoodAfterReset
  exact good_of_reset State.reset_csr State.reset_rsp State.reset_fs State.reset_wo

/-- Settles O19: a step changes nothing, resets the block, raises `ILLEGAL_CMD`, or runs one command, which keeps the invariant
(`exec_good`); taking the item and moving the index on touch nothing the invariant speaks of. -/
theorem everyStepKeepsGood : Obligations.EveryStepKeepsGood := by
  unfold Obligations.EveryStepKeepsGood
  intro s t h hstep
  have htaken : ∀ rest, (setPending rest s).Good := fun rest => h.congr rfl rfl rfl rfl
  obtain ⟨-, rfl⟩ | ⟨rest, -, rfl⟩ | ⟨_, rest, _, -, -, rfl⟩ | ⟨_, rest, i, u, -, -, hexec, rfl⟩ := step_cases s t hstep
  · exact h
  · exact good_of_reset (hostReset_csr _) (hostReset_rsp _) (hostReset_fs _) (hostReset_wo _)
  · exact (good_raiseCode (htaken rest) .illegalCmd).congr rfl rfl rfl rfl
  · exact (exec_good (htaken rest) hexec).congr rfl rfl rfl rfl

end Sys2Proof.Machine
end

section
/-! PROOFS. A transfer composed of a data area, descriptor words and a trailer word (20_memory.md R51): what the engine reads
from it, and that the unused bits of its words change nothing (30_encoding.md R84). -/

namespace Sys2Proof.Machine

/-! ## Reading a composed transfer -/

/-- The wire layout of an inbound transfer (20_memory.md R51). -/
def composedTransfer (data : List Byte) (words : List DWord) (tw : DWord) : List Byte :=
  data ++ (words.map leBytes64).flatten ++ leBytes64 tw

theorem flatten_leBytes64_length (words : List DWord) : ((words.map leBytes64).flatten).length = 8 * words.length := by
  induction words with
  | nil => rfl
  | cons w ws ih => rw [List.map_cons, List.flatten_cons, List.length_append, leBytes64_length, ih, List.length_cons]; omega

theorem composedTransfer_length (data : List Byte) (words : List DWord) (tw : DWord) :
    (composedTransfer data words tw).length = data.length + 8 * (words.length + 1) := by
  rw [composedTransfer, List.length_append, List.length_append, flatten_leBytes64_length, leBytes64_length]
  omega

theorem trailerWord_composedTransfer (data : List Byte) (words : List DWord) (tw : DWord) :
    trailerWord (composedTransfer data words tw) = tw := by
  have hstored := le64_stored (data ++ (words.map leBytes64).flatten) [] tw
  rw [List.append_nil] at hstored
  rw [trailerWord, composedTransfer, List.length_append, leBytes64_length, Nat.add_sub_cancel, hstored]

/-- Word `i` of an array of wire words (40_rx_reassembly.md R117). -/
theorem le64_flatten (words : List DWord) (c : List Byte) (i : Nat) (hi : i < words.length) :
    le64 ((words.map leBytes64).flatten ++ c) (8 * i) = words[i] := by
  induction words generalizing i with
  | nil => exact absurd hi (Nat.not_lt_zero i)
  | cons w ws ih =>
    rw [List.map_cons, List.flatten_cons, List.append_assoc]
    cases i with
    | zero => exact le64_stored [] _ w
    | succ i =>
      have hplace : 8 * (i + 1) = (leBytes64 w).length + 8 * i := by rw [leBytes64_length]; omega
      rw [hplace, le64_append_right, ih i (Nat.lt_of_succ_lt_succ hi), List.getElem_cons_succ]

section
variable {lay : Layout} {data : List Byte} {words : List DWord} {tw : DWord}

/-- Where the trailer word is right about the transfer, the descriptors are those composed into it. -/
theorem transferDescs_composedTransfer (hpc : packetCount lay tw = words.length) (hoff : trailerOffset lay tw = data.length) :
    transferDescs lay (composedTransfer data words tw) = words.map (decodeDesc lay) := by
  rw [transferDescs, trailerWord_composedTransfer, hpc, hoff]
  refine List.ext_getElem (by simp) fun i hi _ => ?_
  rw [descriptors_length] at hi
  simp only [descriptors, List.getElem_map, List.getElem_range]
  rw [composedTransfer, List.append_assoc, le64_append_right, le64_flatten words _ i hi]

theorem slice_composedTransfer {lo hi : Nat} (h : hi ≤ data.length) :
    slice (composedTransfer data words tw) lo hi = slice data lo hi := by
  rw [composedTransfer, List.append_assoc, slice_append_left _ _ _ _ h]

/-- A composed transfer is consistent when its trailer word is right about it and the lengths of its descriptors fill the data
area (20_memory.md R51). -/
theorem transferConsistent_composedTransfer (hpc : packetCount lay tw = words.length)
    (hoff : trailerOffset lay tw = data.length) (hpos : 0 < words.length)
    (hsum : consumedUpTo (words.map (decodeDesc lay)) words.length = data.length) :
    transferConsistent lay (composedTransfer data words tw) := by
  rw [transferConsistent, transferDescs_composedTransfer hpc hoff, trailerWord_composedTransfer, composedTransfer_length, hpc,
    hoff]
  exact ⟨by omega, rfl, hpos, hsum⟩

/-- The frames of a valid transfer are cut from its data area (40_rx_reassembly.md R125). -/
theorem deliveredFrames_composedTransfer (p : Params) (c : Snapshot) {slots : List Slot}
    (h : ∀ sl ∈ slots, sl.start + sl.desc.len ≤ data.length) :
    deliveredFrames p c (composedTransfer data words tw) slots = deliveredFrames p c data slots := by
  refine List.map_congr_left fun sl hsl => ?_
  rw [frameOf, frameOf, slice_composedTransfer (h sl (List.mem_of_mem_filter hsl))]

/-- The slots of a composed transfer that passes the checks lie in its data area (40_rx_reassembly.md R119, R125). -/
theorem slots_inData {slots : List Slot} (hpc : packetCount lay tw = words.length)
    (hv : validateTransfer lay (composedTransfer data words tw) = .ok slots) :
    ∀ sl ∈ slots, sl.start + sl.desc.len ≤ data.length := by
  obtain ⟨-, hL, -, hsum, rfl⟩ := (validateTransfer_ok_iff _ _ _).mp hv
  rw [composedTransfer_length, trailerWord_composedTransfer, hpc] at hL
  have hoff : trailerOffset lay tw = data.length := by omega
  intro sl hsl
  obtain ⟨-, hin⟩ := slotsOf_inBounds _ sl hsl
  rw [descriptors_length, hsum, trailerWord_composedTransfer, hoff] at hin
  exact hin

end

/-! ## The unused bits -/

theorem decodeDesc_congr {lay : Layout} {w w' : DWord} (h : ∀ f ∈ descFields lay, getField f w = getField f w') :
    decodeDesc lay w = decodeDesc lay w' := by
  simp only [descFields, List.forall_mem_cons] at h
  obtain ⟨hL4err, hL3err, hL4t, hVlan, hRxok, hLen, hDrop, hVid, -⟩ := h
  simp only [decodeDesc, getFlag, hL4err, hL3err, hL4t, hVlan, hRxok, hLen, hDrop, hVid]

theorem map_decodeDesc_congr {lay : Layout} {ds ds' : List DWord} (hlen : ds.length = ds'.length)
    (h : ∀ (i : Nat) (w w' : DWord), ds[i]? = some w → ds'[i]? = some w' →
      ∀ f ∈ descFields lay, getField f w = getField f w') :
    ds.map (decodeDesc lay) = ds'.map (decodeDesc lay) := by
  refine List.ext_getElem (by simpa using hlen) fun i hi hi' => ?_
  rw [List.length_map] at hi hi'
  rw [List.getElem_map, List.getElem_map]
  exact decodeDesc_congr (h i _ _ (List.getElem?_eq_getElem hi) (List.getElem?_eq_getElem hi'))

section
variable {lay : Layout} {data : List Byte} {ds ds' : List DWord} {tw tw' : DWord} (hlen : ds.length = ds'.length)
  (hdescs : ds.map (decodeDesc lay) = ds'.map (decodeDesc lay)) (hpc : packetCount lay tw = ds.length)
  (hpc' : packetCount lay tw' = packetCount lay tw) (hoff' : trailerOffset lay tw' = trailerOffset lay tw)
include hlen hdescs hpc hpc' hoff'

theorem validateTransfer_composedTransfer_congr :
    validateTransfer lay (composedTransfer data ds tw) = validateTransfer lay (composedTransfer data ds' tw') := by
  have hL := composedTransfer_length data ds tw
  have hL' := composedTransfer_length data ds' tw'
  by_cases hoff : trailerOffset lay tw = data.length
  · rw [validateTransfer_of_offset (by omega) (by rw [hL, trailerWord_composedTransfer, hpc, hoff]),
      validateTransfer_of_offset (by omega) (by rw [hL', trailerWord_composedTransfer, hpc', hoff', hpc, hoff, hlen]),
      transferDescs_composedTransfer hpc hoff, transferDescs_composedTransfer (by rw [hpc', hpc, hlen]) (by rw [hoff', hoff]),
      trailerWord_composedTransfer, trailerWord_composedTransfer, hpc', hoff', hdescs]
  · rw [validateTransfer_of_offsetMismatch (by omega) (.inr (by rw [hL, trailerWord_composedTransfer]; omega)),
      validateTransfer_of_offsetMismatch (by omega) (.inr (by rw [hL', trailerWord_composedTransfer]; omega))]

theorem rxEffect_composedTransfer_congr {p : Params} (hlay : p.layout = lay) (c : Snapshot) :
    rxEffect p c (composedTransfer data ds tw) = rxEffect p c (composedTransfer data ds' tw') := by
  subst hlay
  have hv := validateTransfer_composedTransfer_congr (data := data) hlen hdescs hpc hpc' hoff'
  rw [rxEffect, rxEffect, ← hv]
  rcases hok : validateTransfer p.layout (composedTransfer data ds tw) with r | slots
  · rfl
  · have hin := slots_inData hpc hok
    simp only [deliveredFrames_composedTransfer p c hin]

end

/-- Settles O36: the engine reads a transfer through the layout's fields only, so both transfers have the same effect
(`rxEffect_composedTransfer_congr`). -/
theorem unusedWireBitsChangeNothing : Obligations.UnusedWireBitsChangeNothing := by
  unfold Obligations.UnusedWireBitsChangeNothing
  intro s data ds ds' tw tw' hlay hbound hlen hfields htrailer hpc
  simp only [trailerFields, List.forall_mem_cons] at htrailer
  obtain ⟨hCnt, hOff, -⟩ := htrailer
  have heffect := rxEffect_composedTransfer_congr (data := data) hlen (map_decodeDesc_congr hlen hfields) hpc hCnt.symm
    hOff.symm rfl (takeSnapshot s.csr)
  have hL := composedTransfer_length data ds tw
  have hL' := composedTransfer_length data ds' tw'
  refine ⟨_, (exec_rxd_next_iff_effect (composedTransfer data ds tw) s _).mpr ⟨by omega, hlay, rfl⟩,
    (exec_rxd_next_iff_effect (composedTransfer data ds' tw') s _).mpr ⟨by omega, hlay, ?_⟩⟩
  rw [heffect]
  rfl

end Sys2Proof.Machine
end

section
/-! PROOFS. Both engines (20_memory.md R68, 41_tx_framing.md R173): the order of an `RXD` and a `TXE`, and a frame that goes out
and comes back. -/

namespace Sys2Proof.Machine

/-! ## A `TXE` does not see what an `RXD` wrote -/

section
variable (e : RxEffect) (b : List Byte) (s : State)

theorem drawAnswer_apply (d : Draw) : drawAnswer d (e.apply b s) = ((drawAnswer d s).1, e.apply b (drawAnswer d s).2) := by
  have hans : (e.apply b s).host.answers = s.host.answers := rfl
  rcases h : s.host.answers with _ | ⟨a, rest⟩
  · simp only [drawAnswer, hans, h]
    rfl
  · rw [drawAnswer_of_answers d h, drawAnswer_of_answers d (hans.trans h)]
    rfl

theorem linearizeStep_apply (segs : List (List Byte)) (sg : Bool) :
    linearizeStep segs sg (e.apply b s) = ((linearizeStep segs sg s).1, e.apply b (linearizeStep segs sg s).2) := by
  rw [linearizeStep, linearizeStep]
  split
  · exact drawAnswer_apply e b s .lin
  · rfl

theorem marginStep_apply (hr tr pad : Nat) :
    marginStep hr tr pad (e.apply b s) = ((marginStep hr tr pad s).1, e.apply b (marginStep hr tr pad s).2) := by
  rw [marginStep, marginStep]
  split
  · exact drawAnswer_apply e b s .alloc
  · rfl

theorem failTransmit_apply (f : TxFailure) :
    failTransmit f (e.apply b s) = { e.apply b (failTransmit f s) with rsp := (failTransmit f s).rsp } := by
  rw [failTransmit_eq, failTransmit_eq]
  rfl

theorem finishTransmit_apply (h : DWord) (f : List Byte) (drop : Bool) (pad : Nat) :
    finishTransmit h f drop pad (e.apply b s) =
      { e.apply b (finishTransmit h f drop pad s) with rsp := (finishTransmit h f drop pad s).rsp } := by
  rw [finishTransmit_eq, finishTransmit_eq]
  rfl

/-- After an `RXD` a `TXE` does what it would have done before it, and its response is the last (20_memory.md R68). -/
theorem txeCommand_apply (v : Bool) (mss tci : BitVec 16) (segs : List (List Byte)) (hr tr : Nat) :
    txeCommand v mss tci segs hr tr (e.apply b s) =
      { e.apply b (txeCommand v mss tci segs hr tr s) with rsp := (txeCommand v mss tci segs hr tr s).rsp } := by
  by_cases hcfg : cfgMaxPkt s ≤ 8
  · rw [txeCommand_of_maxPkt_le (s := s) v tci hcfg, txeCommand_of_maxPkt_le (s := e.apply b s) v tci hcfg]
    rfl
  by_cases hsize : txLenMax s.params.layout < (frameBytes segs).length ∨ txMssMax s.params.layout < mss.toNat
  · rw [txeCommand_of_oversize (s := s) v tci (by omega) hsize,
      txeCommand_of_oversize (s := e.apply b s) v tci (Nat.not_le.mp hcfg) hsize]
    rfl
  obtain ⟨hlen, hmss⟩ := not_or.mp hsize
  rw [Nat.not_le] at hcfg
  rw [Nat.not_lt] at hlen hmss
  have hlin' := linearizeStep_apply e b s segs (cfgSgOk s)
  rcases hlin : linearizeStep segs (cfgSgOk s) s with ⟨_ | _, s₁⟩ <;> rw [hlin] at hlin'
  case fail =>
    rw [txeCommand_of_linearize_fail (s := s) v tci hcfg hlen hmss hlin,
      txeCommand_of_linearize_fail (s := e.apply b s) v tci hcfg hlen hmss hlin', failTransmit_apply]
  case ok =>
    have hmargin' := marginStep_apply e b s₁ hr tr (paddingFor (frameBytes segs).length (cfgMaxPkt s))
    rcases hmargin : marginStep hr tr (paddingFor (frameBytes segs).length (cfgMaxPkt s)) s₁ with ⟨_ | _, s₂⟩ <;>
      rw [hmargin] at hmargin'
    case fail =>
      rw [txeCommand_of_margin_fail (s := s) v tci hcfg hlen hmss hlin hmargin,
        txeCommand_of_margin_fail (s := e.apply b s) v tci hcfg hlen hmss hlin' hmargin', failTransmit_apply]
    case ok =>
      rw [txeCommand_of_resources_ok (s := s) v tci hcfg hlen hmss hlin hmargin,
        txeCommand_of_resources_ok (s := e.apply b s) v tci hcfg hlen hmss hlin' hmargin', finishTransmit_apply]
      rfl

end

/-- Settles O50: the effect of the `RXD` is the same in both orders, since a `TXE` leaves the parameters and the configuration
(`txeFrame`), and the `TXE` commutes with it (`txeCommand_apply`). -/
theorem enginesAreIndependent : Obligations.EnginesAreIndependent := by
  unfold Obligations.EnginesAreIndependent
  intro s r x rx xr b v mss tci segs hr tr hrxd htxe' htxe hrxd'
  have heffect : rxEffect x.params (takeSnapshot x.csr) b = rxEffect s.params (takeSnapshot s.csr) b := by
    obtain ⟨hframe, -⟩ := txeFrame s x v mss tci segs hr tr htxe
    rw [hframe]
    rfl
  have hmid := exec_rxd_eq_apply hrxd
  have hxr := exec_rxd_eq_apply hrxd'
  obtain ⟨-, -, -, hx⟩ := (exec_txe_next_iff _ _ _ _ _ _ _ _).mp htxe
  obtain ⟨-, -, -, hrx⟩ := (exec_txe_next_iff _ _ _ _ _ _ _ _).mp htxe'
  have hcommute := txeCommand_apply (rxEffect s.params (takeSnapshot s.csr) b) b (useSegments segs s) v mss tci segs hr tr
  rw [← hx] at hcommute
  rw [heffect] at hxr
  have hrx' : rx = { xr with rsp := x.rsp } := by
    rw [hrx, hmid, hxr]
    exact hcommute
  refine ⟨?_, ?_, ?_⟩
  · rw [hrx']
  · rw [hxr, hmid]
    rfl
  · rw [hrx']

/-! ## Out and back -/

theorem slice_full (f : List Byte) : slice f 0 f.length = f := by
  rw [slice, List.drop_zero, Nat.sub_zero, List.take_length]

/-- The one slot of the matching transfer: the hardware pad, the frame, and zeros up to a multiple of 8
(40_rx_reassembly.md R119, 41_tx_framing.md R173). -/
def paddedSlot (pad : Nat) (f : List Byte) : List Byte :=
  zeros pad ++ f ++ zeros (roundUp8 (f.length + pad) - (f.length + pad))

theorem paddedSlot_length (pad : Nat) (f : List Byte) : (paddedSlot pad f).length = roundUp8 (f.length + pad) := by
  have hround := roundUp8_ge (f.length + pad)
  rw [paddedSlot, List.length_append, List.length_append, zeros_length, zeros_length]
  omega

/-- The frame stands behind the hardware pad of its slot (40_rx_reassembly.md R125). -/
theorem slice_paddedSlot (pad : Nat) (f : List Byte) : slice (paddedSlot pad f) pad (f.length + pad) = f := by
  rw [paddedSlot, slice_append_left _ _ _ _ (by rw [List.length_append, zeros_length]; omega),
    slice_append_right _ _ _ _ (by rw [zeros_length]), zeros_length, Nat.sub_self, Nat.add_sub_cancel, slice_full]

/-- The descriptor of the matching transfer (41_tx_framing.md R173): the frame with its pad, accepted without error, and
tagged with `vid`. -/
structure MatchingDesc (d : Desc) (len : Nat) (vid : BitVec 12) : Prop where
  len : d.len = len
  drop : d.drop = false
  rxok : d.rxok = true
  l3err : d.l3err = false
  l4err : d.l4err = false
  vlan : d.vlan = true
  vid : d.vid = vid

/-- One slot whose descriptor matches delivers the frame behind the pad, with the tag (40_rx_reassembly.md R124 to R127). -/
theorem frameAt_matching {t : State} {b f : List Byte} {d : Desc} {vid : BitVec 12}
    (hd : MatchingDesc d (f.length + t.params.rxHwPad) vid) (hmax : f.length ≤ cfgMaxLen t)
    (hslice : slice b t.params.rxHwPad (f.length + t.params.rxHwPad) = f) :
    frameAt t b [d] 0 = some ⟨f, csumOf (cfgCsumEn t) d, some vid⟩ := by
  refine (frameAt_eq_some_iff t b [d] 0 _).mpr ⟨Nat.zero_lt_one, (accepts_iff _ _ _).mpr ⟨hd.drop, hd.rxok, ?_, ?_, ?_⟩, ?_⟩
  · rintro ⟨-, herr | herr⟩
    · exact absurd (hd.l3err.symm.trans herr) (by decide)
    · exact absurd (hd.l4err.symm.trans herr) (by decide)
  · exact hd.len.trans_le (Nat.add_le_add_right hmax _)
  · exact (Nat.le_add_left _ _).trans_eq hd.len.symm
  · simp only [frameOf, vlanOf, List.getElem_cons_zero, consumedUpTo_zero, Nat.zero_add, hd.len, hd.vlan, hd.vid, hslice,
      if_true]

/-- The transfer of one slot with a matching descriptor: `RXD` delivers exactly its frame (41_tx_framing.md R173). -/
theorem exec_rxd_matching {t : State} {f : List Byte} {d tw : DWord} {vid : BitVec 12}
    (hlay : layoutValid t.params.layout = true) (hcfg : cfgMaxLen t ≠ 0) (hmax : f.length ≤ cfgMaxLen t)
    (hd : MatchingDesc (decodeDesc t.params.layout d) (f.length + t.params.rxHwPad) vid)
    (hpc : packetCount t.params.layout tw = 1)
    (hoff : trailerOffset t.params.layout tw = roundUp8 (f.length + t.params.rxHwPad)) :
    ∃ u csum, exec (.rxd (composedTransfer (paddedSlot t.params.rxHwPad f) [d] tw)) t = .next u ∧
      u.rsp = ⟨0, 1⟩ ∧ u.fs = t.fs ++ [⟨f, csum, some vid⟩] := by
  have hdata := paddedSlot_length t.params.rxHwPad f
  have hround := roundUp8_ge (f.length + t.params.rxHwPad)
  have hbound := trailerOffset_lt t.params.layout hlay tw
  have hoff' : trailerOffset t.params.layout tw = (paddedSlot t.params.rxHwPad f).length := hoff.trans hdata.symm
  have hlen : (composedTransfer (paddedSlot t.params.rxHwPad f) [d] tw).length < 2 ^ 32 := by
    rw [composedTransfer_length, List.length_singleton]
    omega
  have hcons : transferConsistent t.params.layout (composedTransfer (paddedSlot t.params.rxHwPad f) [d] tw) := by
    refine transferConsistent_composedTransfer hpc hoff' Nat.zero_lt_one ?_
    simp [hd.len, hdata]
  have hframe := frameAt_matching (b := composedTransfer (paddedSlot t.params.rxHwPad f) [d] tw) hd hmax
    ((slice_composedTransfer (by omega)).trans (slice_paddedSlot _ f))
  have hframes : (List.range 1).filterMap (frameAt t (composedTransfer (paddedSlot t.params.rxHwPad f) [d] tw)
      (transferDescs t.params.layout (composedTransfer (paddedSlot t.params.rxHwPad f) [d] tw))) =
        [⟨f, csumOf (cfgCsumEn t) (decodeDesc t.params.layout d), some vid⟩] := by
    rw [transferDescs_composedTransfer (words := [d]) hpc hoff']
    exact List.filterMap_cons_some hframe
  obtain ⟨hexec, -, -⟩ := rxdDeliversTheAcceptedFrames t _ 1 _ hlay hlen hcfg hcons
    (by rw [trailerWord_composedTransfer, hpc]) hframes.symm
  exact ⟨_, _, hexec, rfl, rfl⟩

/-- The 12-bit id of a tag (41_tx_framing.md R173). -/
theorem ofNat_toNat_eq_extractLsb' (tci : BitVec 16) : BitVec.ofNat 12 tci.toNat = tci.extractLsb' 0 12 := by
  refine BitVec.eq_of_toNat_eq ?_
  rw [BitVec.toNat_ofNat, BitVec.extractLsb'_toNat, Nat.shiftRight_zero]

/-- Settles O51: the buffer sent gives back its header and its frame (`wireBuffer_header`, `wireBuffer_frame`), the header its
length and tag (`txHeader_fields`), and the matching transfer delivers that frame (`exec_rxd_matching`). -/
theorem roundTripPreservesTheFrame : Obligations.RoundTripPreservesTheFrame := by
  unfold Obligations.RoundTripPreservesTheFrame
  intro s t mss tci segs hr tr n x d tw hexec hok hwo hn hdesc hpc hoff hcfg hmax
  obtain ⟨hlay, -, hlen, hparams, hsent, -, -⟩ := exec_txe_of_ok hexec hok
  obtain rfl : x = sentBuffer s.params.layout (cfgMaxPkt s) true mss tci segs.flatten :=
    List.singleton_inj.mp (List.append_cancel_left (hwo.symm.trans hsent))
  obtain ⟨hfLen, -, -, hfTci, -⟩ := txHeader_fields s.params.layout hlay true mss tci segs.flatten.length (cfgMaxPkt s)
  rw [sentBuffer, wireBuffer_header] at hn hdesc
  rw [hfTci, if_pos rfl, ofNat_toNat_eq_extractLsb'] at hdesc
  obtain rfl : n = segs.flatten.length := hn.trans (hfLen.trans (Nat.mod_eq_of_lt hlen))
  rw [sentBuffer, wireBuffer_frame]
  rw [← hparams] at hlay hdesc hpc hoff ⊢
  have hmatch : MatchingDesc (decodeDesc t.params.layout d) (segs.flatten.length + t.params.rxHwPad)
      (tci.extractLsb' 0 12) := by
    constructor <;> rw [hdesc]
  obtain ⟨u, csum, hrxd, hrsp, hfs⟩ := exec_rxd_matching hlay hcfg hmax hmatch hpc hoff
  refine ⟨u, csum, ?_, hrsp, hfs⟩
  simpa only [composedTransfer, paddedSlot, List.map_cons, List.map_nil, List.flatten_cons, List.flatten_nil,
    List.append_nil] using hrxd

end Sys2Proof.Machine
end
